-- ==== Sys2Proof/Word.lean ====
section
/-! DEFINITION. The byte and the byte string: every value the block computes on (00_scope.md R10). -/

namespace Sys2Proof

/-- An unsigned integer 0 to 255 (00_scope.md R10). The block shifts nothing; it adds bytes modulo 256 and
exclusive-ors them with 0x20 (40_codec.md R90). -/
abbrev Byte := BitVec 8

/-- A finite sequence of bytes, first byte first (00_scope.md R10). -/
abbrev Bytes := List Byte

end Sys2Proof
end

