-- ==== Sys2Proof/Machine/Types.lean ====
section
/-! DEFINITION. The closed result and event types of the block (00_scope.md R13), the counter type, and what an
operation returns to the host (00_scope.md R9, column "result"). -/

namespace Sys2Proof.Machine

/-- Why VALIDATE rejects a candidate; `none` only accompanies a true verdict (00_scope.md R13). -/
inductive Reason where
  | none
  | tooShort
  | lengthMismatch
  | checksumMismatch
  deriving DecidableEq, Repr

/-- The six inbound variants of the Dispatch Table (00_scope.md R13, 30_encoding.md R71). -/
inductive Kind where
  | localATResponse
  | transmitStatus
  | routeInformation
  | receivePacket
  | explicitRxIndicator
  | remoteATResponse
  deriving DecidableEq, Repr

/-- What FEED reports, in stream order (00_scope.md R13). -/
inductive Event where
  /-- A validated frame whose type byte is in the Dispatch Table. -/
  | frame (kind : Kind) (fd : Bytes)
  /-- A validated frame whose type byte `t` is not in the table; `t` is absent when `fd` is empty. -/
  | unknownType (t : Option Byte) (fd : Bytes)
  /-- A candidate discarded as corrupt: the marker and the bytes as received, before any unescaping. -/
  | dropped (reason : Reason) (raw : Bytes)
  /-- A non-empty run of bytes received before any marker. -/
  | noise (bytes : Bytes)
  deriving DecidableEq, Repr

/-- Why ENCODE produces no bytes (00_scope.md R13). -/
inductive EncodeRefusal where
  | emptyFrameData
  | lengthOverflow
  deriving DecidableEq, Repr

/-- The result of ENCODE: the wire bytes, or a named refusal and no bytes (41_encoder.md R110). -/
inductive Encoded where
  | ok (wire : Bytes)
  | refuse (why : EncodeRefusal)
  deriving DecidableEq, Repr

/-- The result of DEFRAME (42_dispatch.md R120). -/
inductive Deframed where
  | valid (fd : Bytes)
  | invalid (reason : Reason)
  deriving DecidableEq, Repr

/-- The result of CLASSIFY (42_dispatch.md R122). -/
inductive Classified where
  | known (kind : Kind)
  | unknown (t : Option Byte)
  deriving DecidableEq, Repr

/-- The conditions of 60_exceptions.md R181, `none` among them. -/
inductive Condition where
  | none
  | tooShort
  | lengthMismatch
  | checksumMismatch
  | unknownType
  | noise
  | emptyFrameData
  | lengthOverflow
  deriving DecidableEq, Repr

end Sys2Proof.Machine
end

