-- ==== Sys2Proof/Config.lean ====
section
/-! DEFINITION. The implementation parameters of 00_scope.md R8: the decided defaults as plain values, the OPEN ones as
constants with no body, so that every claim holds for every value of them. -/

namespace Sys2Proof

/-- The keep window of the tail rule: the tail is kept when it is invalid and `lo <= L <= hi`, `L` its raw length
counted with the marker (43_reassembler.md R147, R153). -/
structure Window where
  lo : Nat
  hi : Nat
  deriving DecidableEq, Repr

/-- The constraint `1 <= KEEP_LO <= KEEP_HI` (93_implementation_defined.md U18). -/
abbrev Window.wf (w : Window) : Prop := 1 ≤ w.lo ∧ w.lo ≤ w.hi

/-- `raw` has a length inside the window. -/
abbrev Window.keeps (w : Window) (L : Nat) : Prop := w.lo ≤ L ∧ L ≤ w.hi

namespace Config

/-- KEEP_LO and KEEP_HI at their decided defaults 1 and 3 (00_scope.md R8, D6; log entry 5). -/
def window : Window := { lo := 1, hi := 3 }

/-- CNT_W at its decided default (00_scope.md R8, D15; log entry 6). -/
abbrev cntW : Nat := 32

/-- CHUNK_MAX at its decided default, none (00_scope.md R8, D17; log entry 7). -/
def chunkMax : Option Nat := none

/-- ESC_RESET is OPEN (10_state.md R27, D4): no body, so nothing can evaluate it (log entry 4). -/
opaque escReset : Bool

/-- REPORT is OPEN and read by no rule (42_dispatch.md R123, D18; log entry 14). -/
opaque report : Machine.Kind → Bool

end Config

namespace Machine

/-- An event counter: CNT_W bits, wrapping (10_state.md R28). -/
abbrev Counter := BitVec Config.cntW

/-- The value CSR_READ returns: a byte for CTRL, a byte sequence for BUF, a counter, or the 0 of a reserved id
(44_control.md R172). -/
inductive CsrValue where
  | ctrl (v : Byte)
  | buf (bs : Bytes)
  | count (c : Counter)
  | zero
  deriving DecidableEq, Repr

/-- What an operation returns to the host (00_scope.md R9, column "result"). -/
inductive Result where
  /-- RESET and CSR_WRITE return nothing. -/
  | none
  /-- CHECKSUM. -/
  | byte (b : Byte)
  /-- ESCAPE and UNESCAPE. -/
  | bytes (bs : Bytes)
  /-- VALIDATE. -/
  | verdict (ok : Bool) (reason : Reason)
  /-- ENCODE. -/
  | encoded (e : Encoded)
  /-- DEFRAME. -/
  | deframed (d : Deframed)
  /-- CLASSIFY. -/
  | classified (c : Classified)
  /-- FEED: the events of this pass. -/
  | events (es : List Event)
  /-- CSR_READ. -/
  | value (v : CsrValue)
  deriving DecidableEq, Repr

end Machine
end Sys2Proof
end

