-- ==== Sys2Proof/Machine/Operands.lean ====
section
/-! DEFINITION. The constants of 00_scope.md R8 and the auxiliary functions of R12: the byte sum, the two-byte length, the
split on the start marker, slices (R10). -/

namespace Sys2Proof.Machine

/-- START (00_scope.md R8). -/
def startMarker : Byte := 0x7E#8

/-- ESCBYTE, the escape introducer (00_scope.md R8). -/
def escByte : Byte := 0x7D#8

/-- XORMASK (00_scope.md R8). -/
def xorMask : Byte := 0x20#8

/-- ESCSET (00_scope.md R8). -/
def escSet : Bytes := [0x7E#8, 0x7D#8, 0x11#8, 0x13#8]

/-- MINRAW, the shortest frame VALIDATE accepts (00_scope.md R8). -/
def minRaw : Nat := 4

/-- LEN_MAX, the largest value of the length field (00_scope.md R8, 30_encoding.md R61). -/
def lenMax : Nat := 65535

/-- The exact sum of the bytes of `s`. -/
def byteSum : Bytes → Nat
  | [] => 0
  | b :: bs => b.toNat + byteSum bs

/-- `Sum8(s)`: the sum of the bytes of `s` modulo 256 (00_scope.md R12). -/
def sum8 (s : Bytes) : Byte := BitVec.ofNat 8 (byteSum s)

/-- `BE16(hi, lo) = 256*hi + lo` (00_scope.md R12, 20_memory.md R40). -/
def be16 (hi lo : Byte) : Nat := 256 * hi.toNat + lo.toNat

/-- `Hi(n) = n div 256` (00_scope.md R12). -/
def hiByte (n : Nat) : Byte := BitVec.ofNat 8 (n / 256)

/-- `Lo(n) = n mod 256` (00_scope.md R12). -/
def loByte (n : Nat) : Byte := BitVec.ofNat 8 (n % 256)

/-- `s[i]`, used only where the index is known to be inside (00_scope.md R10). -/
def byteAt (s : Bytes) (i : Nat) : Byte := s.getD i 0

/-- `s[i..j)`: the indices `i` up to but not including `j` (00_scope.md R10). -/
def slice (s : Bytes) (i j : Nat) : Bytes := (s.take j).drop i

/-- `Split7E(w)` (00_scope.md R12) as its first segment and the list of the others: there are as many others as there
are markers in `w`, and the markers themselves are removed. -/
def split7E : Bytes → Bytes × List Bytes
  | [] => ([], [])
  | b :: bs =>
    if b = startMarker then ([], (split7E bs).1 :: (split7E bs).2)
    else (b :: (split7E bs).1, (split7E bs).2)

/-- `Split7E(w)` as the list of the rule (00_scope.md R12). -/
def segments (w : Bytes) : List Bytes := (split7E w).1 :: (split7E w).2

/-- The `n` bytes of a number, most significant byte first: how the opcode table writes the words of its rows
(98_reader.md; log entry 9). -/
def bigEndian : Nat → Nat → Bytes
  | 0, _ => []
  | n + 1, w => bigEndian n (w / 256) ++ [BitVec.ofNat 8 (w % 256)]

end Sys2Proof.Machine
end

