-- ==== Sys2Proof/Machine/Codec.lean ====
section
/-! DEFINITION. The pure functions of the Frame Codec, the encoder and the dispatch: CHECKSUM, ESCAPE, UNESCAPE, VALIDATE
(40_codec.md), framing (41_encoder.md), DEFRAME and CLASSIFY (42_dispatch.md). Each is total on every byte string. -/

namespace Sys2Proof.Machine

/-- CHECKSUM (40_codec.md R92). -/
def checksum (fd : Bytes) : Byte := 0xFF#8 - sum8 fd

/-- `Esc1` (40_codec.md R94). -/
def esc1 (b : Byte) : Bytes := if b ∈ escSet then [escByte, b ^^^ xorMask] else [b]

/-- `Esc1` of every byte, concatenated. -/
def escTail : Bytes → Bytes
  | [] => []
  | b :: bs => esc1 b ++ escTail bs

/-- ESCAPE (40_codec.md R95): the byte at index 0 is copied unexamined. -/
def escape : Bytes → Bytes
  | [] => []
  | b0 :: rest => b0 :: escTail rest

/-- `Unesc` (40_codec.md R97): a left-to-right scan; the Boolean is the scan state `esc`, a final `true` is discarded. -/
def unescScan : Bool → Bytes → Bytes
  | _, [] => []
  | true, b :: bs => (b ^^^ xorMask) :: unescScan false bs
  | false, b :: bs => if b = escByte then unescScan true bs else b :: unescScan false bs

/-- UNESCAPE (40_codec.md R98): the byte at index 0 is copied unexamined. -/
def unescape : Bytes → Bytes
  | [] => []
  | b0 :: rest => b0 :: unescScan false rest

/-- The frame data of a logical frame: everything but the marker, the two length bytes and the last byte
(40_codec.md R102). -/
def frameDataOf (raw : Bytes) : Bytes := slice raw 3 (raw.length - 1)

/-- VALIDATE (40_codec.md R102): three checks in this order, the first that fails deciding the reason; `raw[0]` is not
examined (R103). -/
def validate (raw : Bytes) : Bool × Reason :=
  if raw.length < minRaw then (false, .tooShort)
  else if be16 (byteAt raw 1) (byteAt raw 2) ≠ raw.length - 4 then (false, .lengthMismatch)
  else if checksum (frameDataOf raw) ≠ byteAt raw (raw.length - 1) then (false, .checksumMismatch)
  else (true, .none)

/-- The logical frame of `fd` (30_encoding.md R60, 41_encoder.md R110). -/
def rawFrame (fd : Bytes) : Bytes :=
  startMarker :: hiByte fd.length :: loByte fd.length :: (fd ++ [checksum fd])

/-- The form a logical frame has on the wire: escaped exactly when escaping mode is on (30_encoding.md R66, R68). -/
def onWire (esc : Bool) (raw : Bytes) : Bytes := if esc then escape raw else raw

/-- ENCODE (41_encoder.md R110 to R113), `esc` being CTRL.ESC. -/
def encodeFrame (esc : Bool) (fd : Bytes) : Encoded :=
  if fd.length = 0 then .refuse .emptyFrameData
  else if lenMax < fd.length then .refuse .lengthOverflow
  else .ok (onWire esc (rawFrame fd))

/-- DEFRAME (42_dispatch.md R120), `esc` being CTRL.ESC: unescape first, validate second. -/
def deframe (esc : Bool) (raw : Bytes) : Deframed :=
  let u := if esc then unescape raw else raw
  match validate u with
  | (true, _) => .valid (frameDataOf u)
  | (false, reason) => .invalid reason

/-- The Dispatch Table (30_encoding.md R71): the six inbound frame types. -/
def dispatchTable : List (Byte × Kind) :=
  [(0x88#8, .localATResponse), (0x8B#8, .transmitStatus), (0x8D#8, .routeInformation),
   (0x90#8, .receivePacket), (0x91#8, .explicitRxIndicator), (0x97#8, .remoteATResponse)]

/-- CLASSIFY (42_dispatch.md R122, R136): only the first byte is read. -/
def classify : Bytes → Classified
  | [] => .unknown none
  | t :: _ =>
    match dispatchTable.lookup t with
    | some kind => .known kind
    | none => .unknown (some t)

end Sys2Proof.Machine
end

