-- ==== Sys2Proof/Syntax.lean ====
section
/-! DEFINITION. The rows of the opcode table as one inductive, what the host presents, and what the decoder answers when
it rejects. The table has five formats (its "format" column): OP, FRAME, WIRE_SYMBOL and ESCAPE_PAIR, FRAME_TYPE. -/

namespace Sys2Proof

/-- Which way the frame that carries a frame type goes: received by the block (FEED) or sent by it (ENCODE)
(30_encoding.md R71, R72; 41_encoder.md R113; log entry 11). -/
inductive Direction where
  | inbound
  | outbound
  deriving DecidableEq, Repr

/-- One constructor per row of the opcode table. -/
inductive Instr where
  -- OP: the eleven operations (00_scope.md R9)
  /-- RESET, R170. -/
  | reset
  /-- CSR_READ, R172; `id` is 0 to 15. -/
  | csrRead (id : BitVec 4)
  /-- CSR_WRITE, R173. -/
  | csrWrite (id : BitVec 4) (v : Byte)
  /-- CHECKSUM, R92. -/
  | checksum (fd : Bytes)
  /-- ESCAPE, R95. -/
  | escape (b : Bytes)
  /-- VALIDATE, R102. -/
  | validate (raw : Bytes)
  /-- DEFRAME, R120. -/
  | deframe (raw : Bytes)
  /-- CLASSIFY, R122. -/
  | classify (fd : Bytes)
  /-- ENCODE, R110. -/
  | encode (fd : Bytes)
  /-- FEED, R140. -/
  | feed (chunk : Bytes)
  /-- UNESCAPE, R98. -/
  | unescape (b : Bytes)
  -- FRAME (30_encoding.md R60)
  /-- FRAME: length high and low byte, frame data (type byte and payload), checksum byte. -/
  | frame (h l : Byte) (fd : Bytes) (c : Byte)
  -- WIRE_SYMBOL and ESCAPE_PAIR (30_encoding.md R65, R69; 40_codec.md R99)
  /-- START_MARKER, R69. -/
  | startMarker
  /-- ESC_7E, R65. -/
  | esc7E
  /-- ESC_7D, R65. -/
  | esc7D
  /-- ESC_11, R65. -/
  | esc11
  /-- ESC_13, R65. -/
  | esc13
  /-- ESC_ANY, R99. -/
  | escAny (b : Byte)
  -- FRAME_TYPE, inbound (42_dispatch.md R124 to R129)
  /-- 0x88, R124. -/
  | localATResponse (dir : Direction) (payload : Bytes)
  /-- 0x8B, R125. -/
  | transmitStatus (dir : Direction) (payload : Bytes)
  /-- 0x8D, R126. -/
  | routeInformation (dir : Direction) (payload : Bytes)
  /-- 0x90, R127. -/
  | receivePacket (dir : Direction) (payload : Bytes)
  /-- 0x91, R128. -/
  | explicitRxIndicator (dir : Direction) (payload : Bytes)
  /-- 0x97, R129. -/
  | remoteATResponse (dir : Direction) (payload : Bytes)
  -- FRAME_TYPE, outbound (42_dispatch.md R130 to R134)
  /-- 0x08, R130. -/
  | localATCommand (dir : Direction) (payload : Bytes)
  /-- 0x09, R131. -/
  | localATCommand09 (dir : Direction) (payload : Bytes)
  /-- 0x17, R132. -/
  | remoteATCommand (dir : Direction) (payload : Bytes)
  /-- 0x10, R133. -/
  | transmit (dir : Direction) (payload : Bytes)
  /-- 0x11, R134. -/
  | explicitAddressingTransmit (dir : Direction) (payload : Bytes)
  -- FRAME_TYPE, the default row (42_dispatch.md R135, R136)
  /-- UNKNOWN_TYPE: any other type byte, or none (empty frame data). -/
  | unknownType (dir : Direction) (t : Option Byte) (payload : Bytes)
  deriving DecidableEq, Repr

/-- What the host presents: a command (the 4-bit command code of 30_encoding.md R78 and its operand bytes,
95_test_vectors.md section 3), or one of the encodings of the table's other formats (log entries 8, 10, 11). -/
inductive Presentation where
  /-- Format OP. -/
  | command (cmd : BitVec 4) (operands : Bytes)
  /-- Format FRAME: one logical (unescaped) frame, all its bytes. -/
  | logicalFrame (raw : Bytes)
  /-- Formats WIRE_SYMBOL and ESCAPE_PAIR: wire bytes. -/
  | wireSymbol (w : Bytes)
  /-- Format FRAME_TYPE: the frame data of one frame, type byte first. -/
  | frameData (dir : Direction) (fd : Bytes)
  deriving DecidableEq, Repr

/-- One turn of the host (log entry 1). -/
inductive Turn where
  /-- The operations it presents at once: none, one, or several (20_memory.md R46, R53). -/
  | present (ps : List Presentation)
  /-- It calls `write(bytes)` on the transport (20_memory.md R47; log entry 12). -/
  | write (bytes : Bytes)
  /-- Its read or its write fails, which the block cannot see: no byte is written (60_exceptions.md R187). -/
  | transportFailure
  deriving DecidableEq, Repr

/-- Why a presentation is not a row of the table. -/
inductive DecodeError where
  /-- Command codes 0xB to 0xF (30_encoding.md R78). -/
  | reservedCommand (cmd : BitVec 4)
  /-- A control operation with missing or extra operand bytes (log entry 8). -/
  | operandCount
  /-- A register id above 15 (44_control.md R172: `id`, 0 to 15; log entry 8). -/
  | noSuchRegister (id : Byte)
  /-- A logical frame without its start marker (30_encoding.md R60). -/
  | noStartMarker
  /-- A logical frame with no room for its length and checksum: fewer than four bytes (30_encoding.md R60). -/
  | frameTooShort
  /-- Wire bytes that are neither the start marker nor one escape pair. -/
  | notAWireSymbol
  /-- Frame data longer than the length field can say (30_encoding.md R61). -/
  | frameDataTooLong
  deriving DecidableEq, Repr

end Sys2Proof
end

