-- ==== Sys2Proof/WellFormed.lean ====
section
/-! DEFINITION. Which terms of Instr are rows of the opcode table with operands the row admits. -/

namespace Sys2Proof

/-- The frame types that have a row of their own: the six inbound and the five outbound codes
(30_encoding.md R71, R72). -/
def namedTypes : Bytes :=
  [0x88#8, 0x8B#8, 0x8D#8, 0x90#8, 0x91#8, 0x97#8, 0x08#8, 0x09#8, 0x17#8, 0x10#8, 0x11#8]

/-- The second bytes of the four escape pairs a compliant transmitter produces (30_encoding.md R65). -/
def pairBytes : Bytes := [0x5E#8, 0x5D#8, 0x31#8, 0x33#8]

/-- A payload that fits a frame together with its type byte (30_encoding.md R61). -/
def payloadFits (payload : Bytes) : Bool := payload.length + 1 ≤ Machine.lenMax

/-- The check. Operations take any operands (00_scope.md R9), and so does a FRAME, whose length and checksum VALIDATE
checks when it arrives (30_encoding.md R64, R69); ESC_ANY stands for the pairs that have no row of their own
(40_codec.md R99); UNKNOWN_TYPE for the types that have none (42_dispatch.md R135), and for empty frame data (R136). -/
def Instr.wf : Instr → Bool
  | .reset | .csrRead _ | .csrWrite _ _ | .checksum _ | .escape _ | .validate _ | .deframe _ | .classify _
  | .encode _ | .feed _ | .unescape _ | .frame _ _ _ _ => true
  | .startMarker | .esc7E | .esc7D | .esc11 | .esc13 => true
  | .escAny b => !pairBytes.contains b
  | .localATResponse _ p | .transmitStatus _ p | .routeInformation _ p | .receivePacket _ p
  | .explicitRxIndicator _ p | .remoteATResponse _ p | .localATCommand _ p | .localATCommand09 _ p
  | .remoteATCommand _ p | .transmit _ p | .explicitAddressingTransmit _ p => payloadFits p
  | .unknownType _ none p => p.isEmpty
  | .unknownType _ (some t) p => !namedTypes.contains t && payloadFits p

/-- The instruction is a row of the table with operands the row admits. -/
abbrev WellFormed (i : Instr) : Prop := i.wf = true

end Sys2Proof
end

