-- ==== Sys2Proof/Decode.lean ====
section
/-! DEFINITION. The decoder: from what the host presents to a row of the opcode table, total, rejecting by name; after it
the encoder, written from the same tables (30_encoding.md R60, R65, R69, R71, R72, R78). -/

namespace Sys2Proof

/-- One register-id operand byte (44_control.md R172: 0 to 15; log entry 8). -/
def decodeId (b : Byte) : Except DecodeError (BitVec 4) :=
  if b.toNat < 16 then .ok (BitVec.ofNat 4 b.toNat) else .error (.noSuchRegister b)

/-- Format OP: the command codes of 30_encoding.md R78, the operand bytes of 95_test_vectors.md section 3. -/
def decodeCommand (cmd : BitVec 4) (operands : Bytes) : Except DecodeError Instr :=
  match cmd.toNat with
  | 0x0 => if operands = [] then .ok .reset else .error .operandCount
  | 0x1 =>
    match operands with
    | [id] => (decodeId id).map .csrRead
    | _ => .error .operandCount
  | 0x2 =>
    match operands with
    | [id, v] => (decodeId id).map (.csrWrite · v)
    | _ => .error .operandCount
  | 0x3 => .ok (.checksum operands)
  | 0x4 => .ok (.escape operands)
  | 0x5 => .ok (.validate operands)
  | 0x6 => .ok (.deframe operands)
  | 0x7 => .ok (.classify operands)
  | 0x8 => .ok (.encode operands)
  | 0x9 => .ok (.feed operands)
  | 0xA => .ok (.unescape operands)
  | _ => .error (.reservedCommand cmd)

/-- Format FRAME: the bytes of one logical frame (30_encoding.md R60). Whether its length and checksum fit is for VALIDATE
to say when it arrives (R64, R69). -/
def decodeFrame (raw : Bytes) : Except DecodeError Instr :=
  if raw.head? ≠ some Machine.startMarker then .error .noStartMarker
  else if raw.length < Machine.minRaw then .error .frameTooShort
  else
    .ok (.frame (Machine.byteAt raw 1) (Machine.byteAt raw 2) (Machine.frameDataOf raw)
      (Machine.byteAt raw (raw.length - 1)))

/-- Formats WIRE_SYMBOL and ESCAPE_PAIR: the marker (30_encoding.md R69), or an introducer and its second byte
(R65; 40_codec.md R99). -/
def decodeSymbol : Bytes → Except DecodeError Instr
  | [m] => if m = Machine.startMarker then .ok .startMarker else .error .notAWireSymbol
  | [e, b] =>
    if e ≠ Machine.escByte then .error .notAWireSymbol
    else if b = 0x5E#8 then .ok .esc7E
    else if b = 0x5D#8 then .ok .esc7D
    else if b = 0x31#8 then .ok .esc11
    else if b = 0x33#8 then .ok .esc13
    else .ok (.escAny b)
  | _ => .error .notAWireSymbol

/-- The row of a frame type (30_encoding.md R71, R72, R74). -/
def frameTypeRow (dir : Direction) (t : Byte) (p : Bytes) : Instr :=
  if t = 0x88#8 then .localATResponse dir p
  else if t = 0x8B#8 then .transmitStatus dir p
  else if t = 0x8D#8 then .routeInformation dir p
  else if t = 0x90#8 then .receivePacket dir p
  else if t = 0x91#8 then .explicitRxIndicator dir p
  else if t = 0x97#8 then .remoteATResponse dir p
  else if t = 0x08#8 then .localATCommand dir p
  else if t = 0x09#8 then .localATCommand09 dir p
  else if t = 0x17#8 then .remoteATCommand dir p
  else if t = 0x10#8 then .transmit dir p
  else if t = 0x11#8 then .explicitAddressingTransmit dir p
  else .unknownType dir (some t) p

/-- Format FRAME_TYPE: the frame data of one frame (30_encoding.md R62, R71 to R74, R77). -/
def decodeFrameData (dir : Direction) : Bytes → Except DecodeError Instr
  | [] => .ok (.unknownType dir none [])
  | t :: p => if payloadFits p then .ok (frameTypeRow dir t p) else .error .frameDataTooLong

/-- The decoder, total on whatever is presented. -/
def decode : Presentation → Except DecodeError Instr
  | .command cmd operands => decodeCommand cmd operands
  | .logicalFrame raw => decodeFrame raw
  | .wireSymbol w => decodeSymbol w
  | .frameData dir fd => decodeFrameData dir fd

/-- The encoder: what the host presents for an instruction. -/
def encode : Instr → Presentation
  | .reset => .command 0x0#4 []
  | .csrRead id => .command 0x1#4 [BitVec.ofNat 8 id.toNat]
  | .csrWrite id v => .command 0x2#4 [BitVec.ofNat 8 id.toNat, v]
  | .checksum fd => .command 0x3#4 fd
  | .escape b => .command 0x4#4 b
  | .validate raw => .command 0x5#4 raw
  | .deframe raw => .command 0x6#4 raw
  | .classify fd => .command 0x7#4 fd
  | .encode fd => .command 0x8#4 fd
  | .feed chunk => .command 0x9#4 chunk
  | .unescape b => .command 0xA#4 b
  | .frame h l fd c => .logicalFrame (0x7E#8 :: h :: l :: (fd ++ [c]))
  | .startMarker => .wireSymbol [0x7E#8]
  | .esc7E => .wireSymbol [0x7D#8, 0x5E#8]
  | .esc7D => .wireSymbol [0x7D#8, 0x5D#8]
  | .esc11 => .wireSymbol [0x7D#8, 0x31#8]
  | .esc13 => .wireSymbol [0x7D#8, 0x33#8]
  | .escAny b => .wireSymbol [0x7D#8, b]
  | .localATResponse dir p => .frameData dir (0x88#8 :: p)
  | .transmitStatus dir p => .frameData dir (0x8B#8 :: p)
  | .routeInformation dir p => .frameData dir (0x8D#8 :: p)
  | .receivePacket dir p => .frameData dir (0x90#8 :: p)
  | .explicitRxIndicator dir p => .frameData dir (0x91#8 :: p)
  | .remoteATResponse dir p => .frameData dir (0x97#8 :: p)
  | .localATCommand dir p => .frameData dir (0x08#8 :: p)
  | .localATCommand09 dir p => .frameData dir (0x09#8 :: p)
  | .remoteATCommand dir p => .frameData dir (0x17#8 :: p)
  | .transmit dir p => .frameData dir (0x10#8 :: p)
  | .explicitAddressingTransmit dir p => .frameData dir (0x11#8 :: p)
  | .unknownType dir none p => .frameData dir p
  | .unknownType dir (some t) p => .frameData dir (t :: p)

/-- The presentation a word of the opcode table stands for: a row of at most 8 bits is a command code where it is below
0x10, else the start marker, else a frame type (outbound for the outbound codes); a wider row is written first byte
first (log entry 9, which also says why 0x08 and 0x09 are the commands ENCODE and FEED). The control operations get the
zero operand bytes the table gives no bits. -/
def tableWord (nbits w : Nat) : Presentation :=
  if nbits ≤ 8 then
    if w < 0x10 then
      .command (BitVec.ofNat 4 w) (if w = 0x1 then [0#8] else if w = 0x2 then [0#8, 0#8] else [])
    else if w = 0x7E then .wireSymbol [0x7E#8]
    else if w = 0x17 ∨ w = 0x10 ∨ w = 0x11 then .frameData .outbound [BitVec.ofNat 8 w]
    else .frameData .inbound [BitVec.ofNat 8 w]
  else if nbits ≤ 16 then .wireSymbol (Machine.bigEndian 2 w)
  else .logicalFrame (Machine.bigEndian (nbits / 8) w)

/-- The instruction the decoder reads from a word of the opcode table. -/
def decodeTableWord (nbits w : Nat) : Option Instr := (decode (tableWord nbits w)).toOption

end Sys2Proof
end

