-- ==== Sys2Proof/Machine/Flags.lean ====
section
/-! DEFINITION. The block has no flags (10_state.md R32). What stands here in their place: the condition codes of
60_exceptions.md R181, and the counter arithmetic of 00_scope.md R11. -/

namespace Sys2Proof.Machine

/-- The numeric code of a condition (60_exceptions.md R181). -/
def Condition.code : Condition → Nat
  | .none => 0
  | .tooShort => 1
  | .lengthMismatch => 2
  | .checksumMismatch => 3
  | .unknownType => 4
  | .noise => 5
  | .emptyFrameData => 6
  | .lengthOverflow => 7

/-- The condition a reason of VALIDATE is (60_exceptions.md R181). -/
def Reason.condition : Reason → Condition
  | .none => .none
  | .tooShort => .tooShort
  | .lengthMismatch => .lengthMismatch
  | .checksumMismatch => .checksumMismatch

/-- The condition an ENCODE refusal is (60_exceptions.md R181). -/
def EncodeRefusal.condition : EncodeRefusal → Condition
  | .emptyFrameData => .emptyFrameData
  | .lengthOverflow => .lengthOverflow

/-- The condition an event of FEED reports; a `Frame` event reports none (60_exceptions.md R181). -/
def Event.condition : Event → Condition
  | .frame _ _ => .none
  | .unknownType _ _ => .unknownType
  | .dropped reason _ => reason.condition
  | .noise _ => .noise

/-- The six event counters (10_state.md R28). -/
inductive CounterName where
  | nFrame
  | nUnknown
  | nShort
  | nLen
  | nCk
  | nNoise
  deriving DecidableEq, Repr

/-- By how much an event moves a counter (10_state.md R28): one of its kind, the number of bytes for `N_NOISE`. -/
def Event.weight : CounterName → Event → Nat
  | .nFrame, .frame _ _ => 1
  | .nUnknown, .unknownType _ _ => 1
  | .nShort, .dropped .tooShort _ => 1
  | .nLen, .dropped .lengthMismatch _ => 1
  | .nCk, .dropped .checksumMismatch _ => 1
  | .nNoise, .noise bytes => bytes.length
  | _, _ => 0

/-- `csr[NAME] <- (csr[NAME] + k) mod 2^CNT_W` (00_scope.md R11, 43_reassembler.md R140). -/
def Counter.add (c : Counter) (k : Nat) : Counter := c + BitVec.ofNat Config.cntW k

end Sys2Proof.Machine
end

