-- ==== Sys2Proof/Machine/State.lean ====
section
/-! DEFINITION. The state of the block as plain data, why a step can stop, and the state after reset (10_state.md R20,
R21, R26, R28, R34, R37). -/

namespace Sys2Proof.Machine

/-- There is no fault state and no condition stops the machine (60_exceptions.md R180; "No behaviour of the block is
`fault`, `stuck` or `any value`", 93_implementation_defined.md section 2): the type has no constructor. -/
inductive Fault where
  deriving DecidableEq, Repr

/-- Why there is no step. -/
inductive Refusal where
  /-- Raised by no arm of exec: every instruction has its meaning. Safe. -/
  | notModelled (mnemonic : String)
  /-- Raised by step where the presentation is no row of the table, the reserved command codes 0xB to 0xF among them
  (30_encoding.md R78: "the model refuses them: no step"). Safe. -/
  | undecodable (why : DecodeError)
  /-- Raised by step where the host presents more than one operation at once (20_memory.md R53, D22: "refused"). Safe. -/
  | overlappingOperations
  /-- Raised by step where the host writes bytes that ENCODE did not return (10_state.md R34: "only ENCODE produces it";
  log entry 12). Safe. -/
  | unreturnedBytesWritten
  /-- Raised by FEED where CHUNK_MAX is set and the chunk is longer (D17, 93_implementation_defined.md U19: `refuse`);
  with the default, none, never raised. Safe. -/
  | chunkTooLong
  deriving DecidableEq, Repr

/-- `CTRL` (10_state.md R26): bit 0 is `ESC`; bits 7 to 1 are hard-wired zero and hold nothing. -/
structure Ctrl where
  esc : Bool
  deriving DecidableEq, Repr

/-- The state. The first eight fields are the block's persistent state (10_state.md R20); the next three are the streams
of R34, records no operation reads; the last three are the model's own. -/
structure State where
  /-- The reassembly buffer, marker first (R21, R22). -/
  buf : Bytes
  /-- CSR 0 (R26). -/
  ctrl : Ctrl
  /-- CSR 2: `Frame` events (R28). -/
  nFrame : Counter
  /-- CSR 3: `UnknownType` events (R28). -/
  nUnknown : Counter
  /-- CSR 4: `Dropped(TooShort, _)` events (R28). -/
  nShort : Counter
  /-- CSR 5: `Dropped(LengthMismatch, _)` events (R28). -/
  nLen : Counter
  /-- CSR 6: `Dropped(ChecksumMismatch, _)` events (R28). -/
  nCk : Counter
  /-- CSR 7: bytes carried by `Noise` events (R28). -/
  nNoise : Counter
  /-- The receive stream: every chunk given to FEED since reset (R34 (1)). -/
  received : Bytes
  /-- The transmit stream: the byte strings ENCODE returned and the host wrote (R34 (2), 20_memory.md R47). -/
  transmitted : Bytes
  /-- The event stream: every event FEED returned (R34 (3); log entry 3). -/
  events : List Event
  /-- The model's own: the byte strings ENCODE returned, oldest first, which the host may write (log entry 12). -/
  encoded : List Bytes
  /-- The model's own: what the last operation returned (log entry 2). -/
  result : Result
  /-- The model's own: what the host presents, turn by turn (log entry 1). -/
  host : List Turn
  deriving DecidableEq, Repr

/-- The state RESET leaves and power-on finds (10_state.md R37, 44_control.md R170); streams and result empty (log
entries 2, 3, 12), nothing presented (log entries 1, 15). -/
def State.reset : State where
  buf := []
  ctrl := { esc := Config.escReset }
  nFrame := 0
  nUnknown := 0
  nShort := 0
  nLen := 0
  nCk := 0
  nNoise := 0
  received := []
  transmitted := []
  events := []
  encoded := []
  result := .none
  host := []

end Sys2Proof.Machine
end

