-- ==== Sys2Proof/Machine/Ops.lean ====
section
/-! DEFINITION. The operations over the state that the meanings share: register access, reporting a condition, one pass of
the reassembler, sending a frame, the host port. There is no trap entry and no trap return (60_exceptions.md R191, R192):
handling a condition is appending its event, moving its counter and going on (State.emit). -/

namespace Sys2Proof.Machine

/-! ### The result port -/

/-- The operation returns `r` to the host. -/
def State.returning (s : State) (r : Result) : State := { s with result := r }

/-! ### Control and status registers -/

/-- The registers of 10_state.md R28 and R29. -/
inductive Csr where
  | ctrl
  | buf
  | counter (name : CounterName)
  | reserved
  deriving DecidableEq, Repr

/-- The register an id names (10_state.md R28, R29). -/
def Csr.ofId (id : BitVec 4) : Csr :=
  match id.toNat with
  | 0 => .ctrl
  | 1 => .buf
  | 2 => .counter .nFrame
  | 3 => .counter .nUnknown
  | 4 => .counter .nShort
  | 5 => .counter .nLen
  | 6 => .counter .nCk
  | 7 => .counter .nNoise
  | _ => .reserved

/-- A counter's value. -/
def State.counter (s : State) : CounterName → Counter
  | .nFrame => s.nFrame
  | .nUnknown => s.nUnknown
  | .nShort => s.nShort
  | .nLen => s.nLen
  | .nCk => s.nCk
  | .nNoise => s.nNoise

/-- `CTRL` as the byte the host reads: bit 0 is ESC, bits 7:1 read 0 (10_state.md R26). -/
def Ctrl.toByte (c : Ctrl) : Byte := if c.esc then 1#8 else 0#8

/-- `CTRL` after a write of `v`: bits 7:1 of `v` are ignored (10_state.md R26, 44_control.md R173). -/
def Ctrl.ofByte (v : Byte) : Ctrl := { esc := v.getLsbD 0 }

/-- What a read of a register gives (44_control.md R172). -/
def State.readCsr (s : State) : Csr → CsrValue
  | .ctrl => .ctrl s.ctrl.toByte
  | .buf => .buf s.buf
  | .counter name => .count (s.counter name)
  | .reserved => .zero

/-- A write of a register: CTRL takes it, a read-only or reserved one ignores it (44_control.md R173, 10_state.md R29). -/
def State.writeCsr (s : State) (v : Byte) : Csr → State
  | .ctrl => { s with ctrl := Ctrl.ofByte v }
  | .buf => s
  | .counter _ => s
  | .reserved => s

/-! ### Reporting a condition -/

/-- `emit E` and its counter (00_scope.md R11; 43_reassembler.md R140): the event goes to the event stream and each counter
moves by what the event weighs in it. -/
def State.emit (s : State) (e : Event) : State :=
  { s with
    nFrame := s.nFrame.add (e.weight .nFrame)
    nUnknown := s.nUnknown.add (e.weight .nUnknown)
    nShort := s.nShort.add (e.weight .nShort)
    nLen := s.nLen.add (e.weight .nLen)
    nCk := s.nCk.add (e.weight .nCk)
    nNoise := s.nNoise.add (e.weight .nNoise)
    events := s.events ++ [e] }

/-- The events of a pass, one after the other. -/
def State.emitAll : State → List Event → State
  | s, [] => s
  | s, e :: es => (s.emit e).emitAll es

/-! ### One pass of the Stream Reassembler -/

/-- The keep window of this machine (43_reassembler.md R153; log entry 5). -/
def keepWindow : Window := Config.window

/-- `Deliver(fd)` (43_reassembler.md R145): the event of a valid candidate. -/
def deliverEvent (fd : Bytes) : Event :=
  match classify fd with
  | .known kind => .frame kind fd
  | .unknown t => .unknownType t fd

/-- The event of a candidate that is not kept: delivered if valid, dropped if not (43_reassembler.md R144, R145, R149). -/
def candidateEvent (esc : Bool) (raw : Bytes) : Event :=
  match deframe esc raw with
  | .valid fd => deliverEvent fd
  | .invalid reason => .dropped reason raw

/-- The tail rule (43_reassembler.md R146, R147, R148): its events and the new buffer. -/
def tailOutcome (w : Window) (esc : Bool) (raw : Bytes) : List Event × Bytes :=
  match deframe esc raw with
  | .valid fd => ([deliverEvent fd], [])
  | .invalid reason => if w.keeps raw.length then ([], raw) else ([.dropped reason raw], [])

/-- The segments after the first, in stream order: all but the last are terminated (43_reassembler.md R143), the last is
the tail; with none there was no marker (R142). -/
def segmentsPass (w : Window) (esc : Bool) : List Bytes → List Event × Bytes
  | [] => ([], [])
  | seg :: rest =>
    match rest with
    | [] => tailOutcome w esc (startMarker :: seg)
    | _ :: _ =>
      (candidateEvent esc (startMarker :: seg) :: (segmentsPass w esc rest).1, (segmentsPass w esc rest).2)

/-- The noise event, if there is any noise (43_reassembler.md R150). -/
def noiseEvents (seg0 : Bytes) : List Event := if seg0 = [] then [] else [.noise seg0]

/-- FEED's events and new buffer (43_reassembler.md R140), for any window. -/
def reassemble (w : Window) (esc : Bool) (buf chunk : Bytes) : List Event × Bytes :=
  let segs := split7E (buf ++ chunk)
  (noiseEvents segs.1 ++ (segmentsPass w esc segs.2).1, (segmentsPass w esc segs.2).2)

/-- The state after FEED, for any window (43_reassembler.md R140). -/
def State.fed (w : Window) (s : State) (chunk : Bytes) : State :=
  let pass := reassemble w s.ctrl.esc s.buf chunk
  { s.emitAll pass.1 with buf := pass.2, received := s.received ++ chunk, result := .events pass.1 }

/-- FEED, for any CHUNK_MAX and any window: a chunk longer than CHUNK_MAX is refused (D17; log entry 7). -/
def feedUnder (chunkMax : Option Nat) (w : Window) (chunk : Bytes) (s : State) : Host.Outcome State Fault Refusal :=
  match chunkMax with
  | none => .next (s.fed w chunk)
  | some n => if n < chunk.length then .refused .chunkTooLong else .next (s.fed w chunk)

/-- FEED on this machine. -/
def feedChunk (chunk : Bytes) (s : State) : Host.Outcome State Fault Refusal :=
  feedUnder Config.chunkMax keepWindow chunk s

/-! ### Sending a frame, and a frame on the wire -/

/-- The byte strings an ENCODE result hands the host: one, or with a refusal none (41_encoder.md R111, R112). -/
def Encoded.wires : Encoded → List Bytes
  | .ok w => [w]
  | .refuse _ => []

/-- The state after ENCODE: nothing of the block's own is written and no I/O is done; the byte string goes to the host
(41_encoder.md R110; 20_memory.md R47). -/
def State.sent (s : State) (fd : Bytes) : State :=
  let r := encodeFrame s.ctrl.esc fd
  { s with encoded := s.encoded ++ r.wires, result := .encoded r }

/-- The state after the host's `write(bytes)`: it appends to the transmit stream and touches nothing of the block
(20_memory.md R47; 10_state.md R34). -/
def State.written (s : State) (bytes : Bytes) : State := { s with transmitted := s.transmitted ++ bytes }

/-- A frame with frame data `fd` goes by: inbound, its wire form in the mode in force is fed; outbound, it is encoded
(42_dispatch.md sections 3 and 4; log entry 11). -/
def carryFrame (dir : Direction) (fd : Bytes) (s : State) : Host.Outcome State Fault Refusal :=
  match dir with
  | .inbound => feedChunk (onWire s.ctrl.esc (rawFrame fd)) s
  | .outbound => .next (s.sent fd)

/-! ### The host port -/

/-- The state after RESET (44_control.md R170): the power-on state; what is the host's own stays: what it has still to
present, the byte strings it got from ENCODE, and what it wrote (20_memory.md R47; log entries 1, 3). -/
def State.restarted (s : State) : State :=
  { State.reset with transmitted := s.transmitted, encoded := s.encoded, host := s.host }

/-- What the host's next turn asks for. -/
inductive Fetched where
  /-- No operation to run: the block waits. -/
  | idle (s : State)
  /-- One operation to run. -/
  | run (p : Presentation) (s : State)
  /-- A turn that has no meaning. -/
  | noStep (why : Refusal)
  deriving DecidableEq, Repr

/-- The host's next turn (20_memory.md R46, R47, R53; 60_exceptions.md R187; log entries 1, 12). -/
def fetch (s : State) : Fetched :=
  match s.host with
  | [] => .idle s
  | .transportFailure :: rest => .idle { s with host := rest }
  | .present [] :: rest => .idle { s with host := rest }
  | .present [p] :: rest => .run p { s with host := rest }
  | .present (_ :: _ :: _) :: _ => .noStep .overlappingOperations
  | .write bytes :: rest =>
    if bytes ∈ s.encoded then .idle (State.written { s with host := rest } bytes) else .noStep .unreturnedBytesWritten

end Sys2Proof.Machine
end

