-- ==== Sys2Proof/Machine/Control.lean ====
section
/-! DEFINITION. The control operations RESET, CSR_READ, CSR_WRITE (44_control.md). -/

namespace Sys2Proof.Machine

/-- RESET (R170). -/
def execReset (s : State) : Host.Outcome State Fault Refusal := .next s.restarted

/-- CSR_READ (R172): reading clears nothing and consumes nothing. -/
def execCsrRead (id : BitVec 4) (s : State) : Host.Outcome State Fault Refusal :=
  .next (s.returning (.value (s.readCsr (Csr.ofId id))))

/-- CSR_WRITE (R173): `CTRL.ESC` only. -/
def execCsrWrite (id : BitVec 4) (v : Byte) (s : State) : Host.Outcome State Fault Refusal :=
  .next ((s.writeCsr v (Csr.ofId id)).returning .none)

end Sys2Proof.Machine
end

