-- ==== Sys2Proof/Machine/FrameOps.lean ====
section
/-! DEFINITION. The operations of the Frame Codec, the encoder, the decoder and the Stream Reassembler (40_codec.md to
43_reassembler.md). -/

namespace Sys2Proof.Machine

/-- CHECKSUM (40_codec.md R92). -/
def execChecksum (fd : Bytes) (s : State) : Host.Outcome State Fault Refusal :=
  .next (s.returning (.byte (checksum fd)))

/-- ESCAPE (40_codec.md R95). -/
def execEscape (b : Bytes) (s : State) : Host.Outcome State Fault Refusal :=
  .next (s.returning (.bytes (escape b)))

/-- UNESCAPE (40_codec.md R98). -/
def execUnescape (b : Bytes) (s : State) : Host.Outcome State Fault Refusal :=
  .next (s.returning (.bytes (unescape b)))

/-- VALIDATE (40_codec.md R102). -/
def execValidate (raw : Bytes) (s : State) : Host.Outcome State Fault Refusal :=
  .next (s.returning (.verdict (validate raw).1 (validate raw).2))

/-- ENCODE (41_encoder.md R110). -/
def execEncode (fd : Bytes) (s : State) : Host.Outcome State Fault Refusal := .next (s.sent fd)

/-- DEFRAME (42_dispatch.md R120). -/
def execDeframe (raw : Bytes) (s : State) : Host.Outcome State Fault Refusal :=
  .next (s.returning (.deframed (deframe s.ctrl.esc raw)))

/-- CLASSIFY (42_dispatch.md R122). -/
def execClassify (fd : Bytes) (s : State) : Host.Outcome State Fault Refusal :=
  .next (s.returning (.classified (classify fd)))

/-- FEED (43_reassembler.md R140). -/
def execFeed (chunk : Bytes) (s : State) : Host.Outcome State Fault Refusal := feedChunk chunk s

end Sys2Proof.Machine
end

