-- ==== Sys2Proof/Machine/FrameTypes.lean ====
section
/-! DEFINITION. The frame types of the opcode table, format FRAME_TYPE (42_dispatch.md R124 to R136): a frame that carries
the type goes by, inbound or outbound (log entry 11). -/

namespace Sys2Proof.Machine

/-- LocalATResponse, frame type 0x88 (R124). -/
def execLocalATResponse (dir : Direction) (payload : Bytes) (s : State) : Host.Outcome State Fault Refusal :=
  carryFrame dir (0x88#8 :: payload) s

/-- TransmitStatus, frame type 0x8B (R125). -/
def execTransmitStatus (dir : Direction) (payload : Bytes) (s : State) : Host.Outcome State Fault Refusal :=
  carryFrame dir (0x8B#8 :: payload) s

/-- RouteInformation, frame type 0x8D (R126). -/
def execRouteInformation (dir : Direction) (payload : Bytes) (s : State) : Host.Outcome State Fault Refusal :=
  carryFrame dir (0x8D#8 :: payload) s

/-- ReceivePacket, frame type 0x90 (R127). -/
def execReceivePacket (dir : Direction) (payload : Bytes) (s : State) : Host.Outcome State Fault Refusal :=
  carryFrame dir (0x90#8 :: payload) s

/-- ExplicitRxIndicator, frame type 0x91 (R128). -/
def execExplicitRxIndicator (dir : Direction) (payload : Bytes) (s : State) : Host.Outcome State Fault Refusal :=
  carryFrame dir (0x91#8 :: payload) s

/-- RemoteATResponse, frame type 0x97 (R129). -/
def execRemoteATResponse (dir : Direction) (payload : Bytes) (s : State) : Host.Outcome State Fault Refusal :=
  carryFrame dir (0x97#8 :: payload) s

/-- LocalATCommand, frame type 0x08 (R130). -/
def execLocalATCommand (dir : Direction) (payload : Bytes) (s : State) : Host.Outcome State Fault Refusal :=
  carryFrame dir (0x08#8 :: payload) s

/-- LocalATCommand09, frame type 0x09 (R131). -/
def execLocalATCommand09 (dir : Direction) (payload : Bytes) (s : State) : Host.Outcome State Fault Refusal :=
  carryFrame dir (0x09#8 :: payload) s

/-- RemoteATCommand, frame type 0x17 (R132). -/
def execRemoteATCommand (dir : Direction) (payload : Bytes) (s : State) : Host.Outcome State Fault Refusal :=
  carryFrame dir (0x17#8 :: payload) s

/-- Transmit, frame type 0x10 (R133). -/
def execTransmit (dir : Direction) (payload : Bytes) (s : State) : Host.Outcome State Fault Refusal :=
  carryFrame dir (0x10#8 :: payload) s

/-- ExplicitAddressingTransmit, frame type 0x11 (R134). -/
def execExplicitAddressingTransmit (dir : Direction) (payload : Bytes) (s : State) : Host.Outcome State Fault Refusal :=
  carryFrame dir (0x11#8 :: payload) s

/-- UNKNOWN_TYPE: any other frame type (R135), or empty frame data (R136). -/
def execUnknownType (dir : Direction) (t : Option Byte) (payload : Bytes) (s : State) :
    Host.Outcome State Fault Refusal :=
  carryFrame dir (t.toList ++ payload) s

end Sys2Proof.Machine
end

