-- ==== Sys2Proof/Machine/Wire.lean ====
section
/-! DEFINITION. The wire items of the opcode table, formats FRAME, WIRE_SYMBOL and ESCAPE_PAIR: each arrives on the receive
stream and is one FEED of its bytes (20_memory.md R47, 70_reset_and_hazards.md R214; log entry 10). Whether an escape pair
is unescaped is FEED's business: exactly when CTRL.ESC = 1 (30_encoding.md R67, R68). -/

namespace Sys2Proof.Machine

/-- FRAME (30_encoding.md R60): a logical frame, escaped on the wire exactly when CTRL.ESC = 1 (R66). -/
def execFrame (h l : Byte) (fd : Bytes) (c : Byte) (s : State) : Host.Outcome State Fault Refusal :=
  feedChunk (onWire s.ctrl.esc (startMarker :: h :: l :: (fd ++ [c]))) s

/-- START_MARKER (30_encoding.md R69). -/
def execStartMarker (s : State) : Host.Outcome State Fault Refusal := feedChunk [startMarker] s

/-- ESC_7E (30_encoding.md R65). -/
def execEsc7E (s : State) : Host.Outcome State Fault Refusal := feedChunk [escByte, 0x5E#8] s

/-- ESC_7D (30_encoding.md R65). -/
def execEsc7D (s : State) : Host.Outcome State Fault Refusal := feedChunk [escByte, 0x5D#8] s

/-- ESC_11 (30_encoding.md R65). -/
def execEsc11 (s : State) : Host.Outcome State Fault Refusal := feedChunk [escByte, 0x31#8] s

/-- ESC_13 (30_encoding.md R65). -/
def execEsc13 (s : State) : Host.Outcome State Fault Refusal := feedChunk [escByte, 0x33#8] s

/-- ESC_ANY (40_codec.md R99). -/
def execEscAny (b : Byte) (s : State) : Host.Outcome State Fault Refusal := feedChunk [escByte, b] s

end Sys2Proof.Machine
end

