-- ==== Sys2Proof/Machine/Dispatch.lean ====
section
/-! DEFINITION. One arm per constructor of Instr, each one direct call of its meaning. -/

namespace Sys2Proof.Machine

def exec (i : Instr) (s : State) : Host.Outcome State Fault Refusal :=
  match i with
  | .reset => Sys2Proof.Machine.execReset s
  | .csrRead id => Sys2Proof.Machine.execCsrRead id s
  | .csrWrite id v => Sys2Proof.Machine.execCsrWrite id v s
  | .checksum fd => Sys2Proof.Machine.execChecksum fd s
  | .escape b => Sys2Proof.Machine.execEscape b s
  | .validate raw => Sys2Proof.Machine.execValidate raw s
  | .deframe raw => Sys2Proof.Machine.execDeframe raw s
  | .classify fd => Sys2Proof.Machine.execClassify fd s
  | .encode fd => Sys2Proof.Machine.execEncode fd s
  | .feed chunk => Sys2Proof.Machine.execFeed chunk s
  | .unescape b => Sys2Proof.Machine.execUnescape b s
  | .frame h l fd c => Sys2Proof.Machine.execFrame h l fd c s
  | .startMarker => Sys2Proof.Machine.execStartMarker s
  | .esc7E => Sys2Proof.Machine.execEsc7E s
  | .esc7D => Sys2Proof.Machine.execEsc7D s
  | .esc11 => Sys2Proof.Machine.execEsc11 s
  | .esc13 => Sys2Proof.Machine.execEsc13 s
  | .escAny b => Sys2Proof.Machine.execEscAny b s
  | .localATResponse dir payload => Sys2Proof.Machine.execLocalATResponse dir payload s
  | .transmitStatus dir payload => Sys2Proof.Machine.execTransmitStatus dir payload s
  | .routeInformation dir payload => Sys2Proof.Machine.execRouteInformation dir payload s
  | .receivePacket dir payload => Sys2Proof.Machine.execReceivePacket dir payload s
  | .explicitRxIndicator dir payload => Sys2Proof.Machine.execExplicitRxIndicator dir payload s
  | .remoteATResponse dir payload => Sys2Proof.Machine.execRemoteATResponse dir payload s
  | .localATCommand dir payload => Sys2Proof.Machine.execLocalATCommand dir payload s
  | .localATCommand09 dir payload => Sys2Proof.Machine.execLocalATCommand09 dir payload s
  | .remoteATCommand dir payload => Sys2Proof.Machine.execRemoteATCommand dir payload s
  | .transmit dir payload => Sys2Proof.Machine.execTransmit dir payload s
  | .explicitAddressingTransmit dir payload => Sys2Proof.Machine.execExplicitAddressingTransmit dir payload s
  | .unknownType dir t payload => Sys2Proof.Machine.execUnknownType dir t payload s

end Sys2Proof.Machine
end

