-- ==== Sys2Proof/Machine/Step.lean ====
section
/-! DEFINITION. One step: the host's next turn, decoded and run. -/

namespace Sys2Proof.Machine

/-- One step. Nothing presented: the block waits, and a write of the host's goes by (20_memory.md R47). One operation: it is
run whole (R46). Several at once, or one that is no row of the table: no step (R53, 30_encoding.md R78). -/
def step (s : State) : Host.Outcome State Fault Refusal :=
  match fetch s with
  | .idle t => .next t
  | .run p t =>
    match decode p with
    | .ok i => exec i t
    | .error e => .refused (.undecodable e)
  | .noStep why => .refused why

/-- `s` with the instruction of a table word as the host's next turn (log entries 9, 15). -/
def State.withFetchWord (s : State) (nbits w : Nat) : State :=
  { s with host := .present [tableWord nbits w] :: s.host }

end Sys2Proof.Machine
end

