-- ==== Sys2Proof/Safety.lean ====
section
/-! DEFINITION. What claims about the machine are stated in: the invariants of the state, runs of several operations, and
where a chunk boundary may fall. -/

namespace Sys2Proof.Machine

/-! ### The buffer invariant (10_state.md R23) -/

/-- `buf` is empty, or the marker followed by bytes that are not markers, its length in the keep window. -/
abbrev BufInv (w : Window) (buf : Bytes) : Prop :=
  buf = [] ∨ (buf.head? = some startMarker ∧ w.lo ≤ buf.length ∧ buf.length ≤ w.hi ∧ startMarker ∉ buf.tail)

/-! ### The counter law (10_state.md R30) -/

/-- A `Frame` event. -/
def Event.isFrame : Event → Bool
  | .frame _ _ => true
  | _ => false

/-- An `UnknownType` event. -/
def Event.isUnknown : Event → Bool
  | .unknownType _ _ => true
  | _ => false

/-- A `Dropped` event with this reason. -/
def Event.isDropped (r : Reason) : Event → Bool
  | .dropped r' _ => r' == r
  | _ => false

/-- The bytes a `Noise` event carries. -/
def Event.noiseBytes : Event → Nat
  | .noise bs => bs.length
  | _ => 0

/-- Each counter is the number of events of its kind (bytes, for `N_NOISE`) modulo `2^CNT_W`. -/
structure CounterLaw (s : State) : Prop where
  frame : s.nFrame.toNat = s.events.countP Event.isFrame % 2 ^ Config.cntW
  unknown : s.nUnknown.toNat = s.events.countP Event.isUnknown % 2 ^ Config.cntW
  short : s.nShort.toNat = s.events.countP (Event.isDropped .tooShort) % 2 ^ Config.cntW
  len : s.nLen.toNat = s.events.countP (Event.isDropped .lengthMismatch) % 2 ^ Config.cntW
  ck : s.nCk.toNat = s.events.countP (Event.isDropped .checksumMismatch) % 2 ^ Config.cntW
  noise : s.nNoise.toNat = (s.events.map Event.noiseBytes).sum % 2 ^ Config.cntW

/-! ### Accounting for every received byte (20_memory.md R45, 43_reassembler.md R161) -/

/-- A candidate: the marker and a segment, which has no marker in it. -/
abbrev IsCandidate (raw : Bytes) : Prop := raw.head? = some startMarker ∧ startMarker ∉ raw.tail

/-- `piece` is the run of received bytes that event `e` reports, `esc` being the mode it was judged in: the bytes of a
`Noise` event, the raw candidate of a `Dropped` event, the wire form of the frame a `Frame` or `UnknownType` event
delivers. -/
def Explains (esc : Bool) (piece : Bytes) : Event → Prop
  | .noise bs => piece = bs ∧ bs ≠ [] ∧ startMarker ∉ bs
  | .dropped r raw => piece = raw ∧ r ≠ .none ∧ IsCandidate raw ∧ deframe esc raw = .invalid r
  | .frame k fd => IsCandidate piece ∧ deframe esc piece = .valid fd ∧ classify fd = .known k
  | .unknownType t fd => IsCandidate piece ∧ deframe esc piece = .valid fd ∧ classify fd = .unknown t

/-- The receive stream is the pieces of the events, in order, followed by `buf`. -/
def Accounted (s : State) : Prop :=
  ∃ pieces : List (Bool × Bytes),
    (pieces.map Prod.snd).flatten ++ s.buf = s.received ∧
    List.Forall₂ (fun p e => Explains p.1 p.2 e) pieces s.events

/-! ### The transmit stream (10_state.md R34 (2), 20_memory.md R47) -/

/-- The transmit stream is byte strings the host wrote, one after the other, each of which ENCODE returned: the frame of
some frame data, in the mode then in force. -/
structure TransmitLaw (s : State) : Prop where
  written : ∃ ws : List Bytes, ws.flatten = s.transmitted ∧ ∀ w ∈ ws, w ∈ s.encoded
  returned : ∀ w ∈ s.encoded, ∃ esc fd, encodeFrame esc fd = .ok w

/-! ### Which rows are which operation -/

/-- The rows that are a FEED: FEED itself, the wire items, and the frame types inbound. -/
def rowFeeds : Instr → Bool
  | .feed _ | .frame _ _ _ _ | .startMarker | .esc7E | .esc7D | .esc11 | .esc13 | .escAny _ => true
  | .localATResponse d _ | .transmitStatus d _ | .routeInformation d _ | .receivePacket d _
  | .explicitRxIndicator d _ | .remoteATResponse d _ | .localATCommand d _ | .localATCommand09 d _
  | .remoteATCommand d _ | .transmit d _ | .explicitAddressingTransmit d _ | .unknownType d _ _ => d == .inbound
  | .reset | .csrRead _ | .csrWrite _ _ | .checksum _ | .escape _ | .validate _ | .deframe _ | .classify _
  | .encode _ | .unescape _ => false

/-- The rows that are an ENCODE: ENCODE itself, and the frame types outbound. -/
def rowEncodes : Instr → Bool
  | .encode _ => true
  | .localATResponse d _ | .transmitStatus d _ | .routeInformation d _ | .receivePacket d _
  | .explicitRxIndicator d _ | .remoteATResponse d _ | .localATCommand d _ | .localATCommand09 d _
  | .remoteATCommand d _ | .transmit d _ | .explicitAddressingTransmit d _ | .unknownType d _ _ => d == .outbound
  | .feed _ | .frame _ _ _ _ | .startMarker | .esc7E | .esc7D | .esc11 | .esc13 | .escAny _
  | .reset | .csrRead _ | .csrWrite _ _ | .checksum _ | .escape _ | .validate _ | .deframe _ | .classify _
  | .unescape _ => false

/-- The rows that carry a frame type: how the row is written for a direction and a payload, and its type byte
(30_encoding.md R71, R72). -/
def inboundRows : List ((Direction → Bytes → Instr) × Byte × Kind) :=
  [(.localATResponse, 0x88#8, .localATResponse), (.transmitStatus, 0x8B#8, .transmitStatus),
   (.routeInformation, 0x8D#8, .routeInformation), (.receivePacket, 0x90#8, .receivePacket),
   (.explicitRxIndicator, 0x91#8, .explicitRxIndicator), (.remoteATResponse, 0x97#8, .remoteATResponse)]

/-- The five outbound codes (30_encoding.md R72). -/
def outboundRows : List ((Direction → Bytes → Instr) × Byte) :=
  [(.localATCommand, 0x08#8), (.localATCommand09, 0x09#8), (.remoteATCommand, 0x17#8), (.transmit, 0x10#8),
   (.explicitAddressingTransmit, 0x11#8)]

/-- The escape-pair rows and the second byte of their pair (30_encoding.md R65). -/
def pairRows : List (Instr × Byte) :=
  [(.esc7E, 0x5E#8), (.esc7D, 0x5D#8), (.esc11, 0x31#8), (.esc13, 0x33#8)]

/-! ### Runs -/

/-- Several operations one after the other (20_memory.md R46), stopping where one has no step. -/
def runAll : List Instr → State → Host.Outcome State Fault Refusal
  | [], s => .next s
  | i :: is, s =>
    match exec i s with
    | .next t => runAll is t
    | .fault f => .fault f
    | .refused r => .refused r

/-- The events of feeding several chunks one after the other in one mode, for any window, and the buffer left. -/
def feedChunks (w : Window) (esc : Bool) : Bytes → List Bytes → List Event × Bytes
  | buf, [] => ([], buf)
  | buf, c :: cs =>
    let p := reassemble w esc buf c
    (p.1 ++ (feedChunks w esc p.2 cs).1, (feedChunks w esc p.2 cs).2)

/-! ### Frames on the wire and where a cut is safe (43_reassembler.md R159) -/

/-- `f` is the ENCODE of `fd` in mode `esc`, and holds no marker after its index 0. -/
def WireFrame (esc : Bool) (fd f : Bytes) : Prop := encodeFrame esc fd = .ok f ∧ startMarker ∉ f.tail

/-- A cut after `p` bytes of the frames is safe: on a frame boundary, or between `lo` and `hi` bytes into a frame. -/
def SafeCut (w : Window) (frames : List Bytes) (p : Nat) : Prop :=
  ∃ done rest, frames = done ++ rest ∧
    (p = done.flatten.length ∨
      ∃ f fs off, rest = f :: fs ∧ p = done.flatten.length + off ∧ w.lo ≤ off ∧ off ≤ w.hi ∧ off ≤ f.length)

end Sys2Proof.Machine
end

