-- ==== Sys2Proof/Certificates/Slice0/Obligations.lean ====
section
/-! DEFINITION. The statements for the provers. Each docstring says which rule of spec/ it formalises. -/

open Sys2Proof Sys2Proof.Machine

/-! ### Encoding and the step -/

/-- Words written out from the tables of 30_encoding.md (R60, R65, R69, R71, R72, R78) and 95_test_vectors.md section 3
decode to the rows they stand for. That CSR_READ and CSR_WRITE take one byte of id and one of value is log entry 8. -/
def Obligations.WordsOfTheTablesDecode : Prop :=
  decode (.command 0x0#4 []) = .ok .reset ∧
  decode (.command 0x1#4 [0x01#8]) = .ok (.csrRead 1#4) ∧
  decode (.command 0x2#4 [0x00#8, 0x01#8]) = .ok (.csrWrite 0#4 0x01#8) ∧
  decode (.command 0x8#4 [0x82#8]) = .ok (.encode [0x82#8]) ∧
  decode (.logicalFrame [0x7E#8, 0x00#8, 0x02#8, 0x8B#8, 0x01#8, 0x73#8]) =
    .ok (.frame 0x00#8 0x02#8 [0x8B#8, 0x01#8] 0x73#8) ∧
  decode (.wireSymbol [0x7E#8]) = .ok .startMarker ∧
  decode (.wireSymbol [0x7D#8, 0x31#8]) = .ok .esc11 ∧
  decode (.wireSymbol [0x7D#8, 0x00#8]) = .ok (.escAny 0x00#8) ∧
  decode (.frameData .inbound [0x97#8, 0x01#8]) = .ok (.remoteATResponse .inbound [0x01#8]) ∧
  decode (.frameData .outbound [0x08#8, 0x52#8, 0x49#8, 0x44#8]) =
    .ok (.localATCommand .outbound [0x52#8, 0x49#8, 0x44#8]) ∧
  decode (.frameData .inbound [0x8A#8]) = .ok (.unknownType .inbound (some 0x8A#8) [])

/-- Decoding undoes encoding, for every well-formed instruction and all its operands. -/
def Obligations.DecodeUndoesEncode : Prop :=
  ∀ i : Instr, WellFormed i → decode (encode i) = .ok i

/-- A presentation has at most one meaning and the decoder answers well-formed instructions only: what decodes to `i` is
the encoding of `i`. -/
def Obligations.EncodeUndoesDecode : Prop :=
  ∀ (p : Presentation) (i : Instr), decode p = .ok i → WellFormed i ∧ encode i = p

/-- The command codes (30_encoding.md R78): 0x0 to 0xA are the eleven operations; a host that presents one of 0xB to 0xF
gets no step. -/
def Obligations.CommandCodesAndReservedCodes : Prop :=
  decode (.command 0x0#4 []) = .ok .reset ∧
  (∀ id : BitVec 4, decode (.command 0x1#4 [id.setWidth 8]) = .ok (.csrRead id)) ∧
  (∀ (id : BitVec 4) (v : Byte), decode (.command 0x2#4 [id.setWidth 8, v]) = .ok (.csrWrite id v)) ∧
  (∀ bs, decode (.command 0x3#4 bs) = .ok (.checksum bs)) ∧
  (∀ bs, decode (.command 0x4#4 bs) = .ok (.escape bs)) ∧
  (∀ bs, decode (.command 0x5#4 bs) = .ok (.validate bs)) ∧
  (∀ bs, decode (.command 0x6#4 bs) = .ok (.deframe bs)) ∧
  (∀ bs, decode (.command 0x7#4 bs) = .ok (.classify bs)) ∧
  (∀ bs, decode (.command 0x8#4 bs) = .ok (.encode bs)) ∧
  (∀ bs, decode (.command 0x9#4 bs) = .ok (.feed bs)) ∧
  (∀ bs, decode (.command 0xA#4 bs) = .ok (.unescape bs)) ∧
  ∀ (s : State) (cmd : BitVec 4) (bs : Bytes) (rest : List Turn), 0xB ≤ cmd.toNat →
    s.host = .present [.command cmd bs] :: rest → step s = .refused (.undecodable (.reservedCommand cmd))

/-- A step runs the one operation the host presents, and runs it whole, with the host's turn used up (20_memory.md R46). -/
def Obligations.StepRunsThePresentedOperation : Prop :=
  ∀ (s : State) (p : Presentation) (i : Instr) (rest : List Turn),
    s.host = .present [p] :: rest → decode p = .ok i → step s = exec i { s with host := rest }

/-- Two or more operations presented at once have no meaning (20_memory.md R53). -/
def Obligations.OverlappingOperationsAreRefused : Prop :=
  ∀ (s : State) (p q : Presentation) (ps : List Presentation) (rest : List Turn),
    s.host = .present (p :: q :: ps) :: rest → step s = .refused .overlappingOperations

/-- Where the host presents nothing, or its transport fails, a step leaves the block as it was (20_memory.md R58,
60_exceptions.md R187; that such a turn is a step at all is the model's choice, log entry 1). -/
def Obligations.WaitingAndTransportFailureLeaveTheBlock : Prop :=
  (∀ s : State, s.host = [] → step s = .next s) ∧
  (∀ (s : State) (rest : List Turn), s.host = .present [] :: rest → step s = .next { s with host := rest }) ∧
  (∀ (s : State) (rest : List Turn), s.host = .transportFailure :: rest → step s = .next { s with host := rest })

/-- Every instruction answers a next state in every state: no fault, no refusal (60_exceptions.md R180; for FEED this rests
on CHUNK_MAX being at its default, none: D17, log entry 7). -/
def Obligations.EveryInstructionCompletes : Prop :=
  ∀ (i : Instr) (s : State), ∃ t, exec i s = .next t

/-- Where CHUNK_MAX is set, a longer chunk is refused and any other is fed (D17, 93_implementation_defined.md U19). -/
def Obligations.LongChunksAreRefusedWhereChunkMaxIsSet : Prop :=
  ∀ (n : Nat) (w : Window) (chunk : Bytes) (s : State),
    (n < chunk.length → feedUnder (some n) w chunk s = .refused .chunkTooLong) ∧
    (chunk.length ≤ n → feedUnder (some n) w chunk s = .next (s.fed w chunk))

/-! ### Control operations -/

/-- RESET (10_state.md R37; 44_control.md R170): the buffer empty, `CTRL.ESC` at ESC_RESET and the other bits of CTRL zero,
the counters zero, no result, idempotent; and the power-on state is what RESET leaves. -/
def Obligations.ResetLeavesThePowerOnState : Prop :=
  (∀ s : State, ∃ t, exec .reset s = .next t ∧ t.buf = [] ∧ t.ctrl.esc = Config.escReset ∧
    exec (.csrRead 0#4) t = .next { t with result := .value (.ctrl (if Config.escReset then 0x01#8 else 0x00#8)) } ∧
    t.nFrame = 0 ∧ t.nUnknown = 0 ∧ t.nShort = 0 ∧ t.nLen = 0 ∧ t.nCk = 0 ∧ t.nNoise = 0 ∧
    t.result = .none ∧ exec .reset t = .next t) ∧
  exec .reset State.reset = .next State.reset

/-- CSR_READ (44_control.md R172): the named register, and nothing written. -/
def Obligations.CsrReadGivesTheNamedRegister : Prop :=
  ∀ s : State,
    exec (.csrRead 0#4) s = .next { s with result := .value (.ctrl (if s.ctrl.esc then 0x01#8 else 0x00#8)) } ∧
    exec (.csrRead 1#4) s = .next { s with result := .value (.buf s.buf) } ∧
    exec (.csrRead 2#4) s = .next { s with result := .value (.count s.nFrame) } ∧
    exec (.csrRead 3#4) s = .next { s with result := .value (.count s.nUnknown) } ∧
    exec (.csrRead 4#4) s = .next { s with result := .value (.count s.nShort) } ∧
    exec (.csrRead 5#4) s = .next { s with result := .value (.count s.nLen) } ∧
    exec (.csrRead 6#4) s = .next { s with result := .value (.count s.nCk) } ∧
    exec (.csrRead 7#4) s = .next { s with result := .value (.count s.nNoise) } ∧
    ∀ id : BitVec 4, 8 ≤ id.toNat → exec (.csrRead id) s = .next { s with result := .value .zero }

/-- CSR_WRITE (44_control.md R173): `CTRL.ESC` takes bit 0; a write to any other id is ignored. -/
def Obligations.CsrWriteWritesOnlyTheModeBit : Prop :=
  ∀ (s : State) (v : Byte),
    exec (.csrWrite 0#4 v) s = .next { s with ctrl := { esc := v.getLsbD 0 }, result := .none } ∧
    ∀ id : BitVec 4, id ≠ 0#4 → exec (.csrWrite id v) s = .next { s with result := .none }

/-- Bits 7 to 1 of CTRL read 0 and ignore writes: a read after a write of `v` gives bit 0 of `v` and nothing else
(10_state.md R26). -/
def Obligations.CtrlReadsBackBitZeroOnly : Prop :=
  ∀ (s : State) (v : Byte), ∃ t u, exec (.csrWrite 0#4 v) s = .next t ∧ exec (.csrRead 0#4) t = .next u ∧
    u.result = .value (.ctrl (v &&& 0x01#8))

/-- Ids 8 to 15 are reserved: a read returns 0, a write is ignored, and so is a write to a read-only register
(10_state.md R29). -/
def Obligations.ReservedIdsReadZeroAndIgnoreWrites : Prop :=
  ∀ (s : State) (id : BitVec 4) (v : Byte),
    (8 ≤ id.toNat → exec (.csrRead id) s = .next { s with result := .value .zero }) ∧
    (1 ≤ id.toNat → exec (.csrWrite id v) s = .next { s with result := .none })

/-! ### The Frame Codec -/

/-- CHECKSUM (40_codec.md R92): one byte, 0xFF minus the sum of the bytes modulo 256; nothing else changes. -/
def Obligations.ChecksumIsFFMinusTheSum : Prop :=
  ∀ (fd : Bytes) (s : State), ∃ c : Byte,
    exec (.checksum fd) s = .next { s with result := .byte c } ∧ c.toNat = 255 - (fd.map BitVec.toNat).sum % 256

/-- The two spellings of the checksum agree (40_codec.md R91): it is also `(255 − sum) mod 256`, the remainder of an
integer; and (R90 (1)) an 8-bit accumulator that discards carries is exact. -/
def Obligations.ChecksumSpellingsAgree : Prop :=
  ∀ fd : Bytes,
    ((checksum fd).toNat : Int) = (255 - ((fd.map BitVec.toNat).sum : Int)) % 256 ∧
    checksum fd = 0xFF#8 - fd.foldl (fun acc b => acc + b) 0#8

/-- Laws of CHECKSUM (40_codec.md R93 (a) to (d)). -/
def Obligations.ChecksumLaws : Prop :=
  (∀ fd : Bytes, ((sum8 fd).toNat + (checksum fd).toNat) % 256 = 0xFF) ∧
  (∀ s t : Bytes, checksum (s ++ t) = checksum s - sum8 t) ∧
  (∀ (a b : Bytes) (x y : Byte), x ≠ y → checksum (a ++ x :: b) ≠ checksum (a ++ y :: b)) ∧
  checksum [0x01#8, 0x02#8] = checksum [0x02#8, 0x01#8] ∧ checksum [0x00#8, 0x03#8] = checksum [0x01#8, 0x02#8]

/-- ESCAPE (40_codec.md R94, R95): the byte at index 0 is copied; of the others, each in ESCSET becomes a pair. -/
def Obligations.EscapeReplacesReservedBytesAfterIndexZero : Prop :=
  ∀ s : State,
    exec (.escape []) s = .next { s with result := .bytes [] } ∧
    ∀ (b0 : Byte) (rest : Bytes), exec (.escape (b0 :: rest)) s =
      .next { s with result := .bytes (b0 :: rest.flatMap (fun b =>
        if b = 0x7E#8 ∨ b = 0x7D#8 ∨ b = 0x11#8 ∨ b = 0x13#8 then [0x7D#8, b ^^^ 0x20#8] else [b])) }

/-- Laws of ESCAPE (40_codec.md R96 (a) to (d)). -/
def Obligations.EscapeLaws : Prop :=
  (∀ b : Bytes, b ≠ [] → b.length ≤ (escape b).length ∧ (escape b).length ≤ 2 * b.length - 1) ∧
  (∀ b : Bytes, 0x7E#8 ∉ (escape b).tail ∧ 0x11#8 ∉ (escape b).tail ∧ 0x13#8 ∉ (escape b).tail) ∧
  (∀ b pre post : Bytes, (escape b).tail = pre ++ 0x7D#8 :: post →
    ∃ y post', post = y :: post' ∧ (y = 0x5E#8 ∨ y = 0x5D#8 ∨ y = 0x31#8 ∨ y = 0x33#8)) ∧
  (∀ a b : Bytes, escape a = escape b → a = b) ∧
  escape (escape [0x7E#8, 0x7D#8]) = [0x7E#8, 0x7D#8, 0x5D#8, 0x5D#8]

/-- UNESCAPE (40_codec.md R97 to R100): the byte at index 0 is copied; the rest is read by the one function `U` with these
equations: a pair gives one byte whatever its second byte, a last 0x7D gives nothing. -/
def Obligations.UnescapeReadsPairs : Prop :=
  ∃ U : Bytes → Bytes,
    (U [] = [] ∧ U [0x7D#8] = [] ∧ (∀ x r, U (0x7D#8 :: x :: r) = (x ^^^ 0x20#8) :: U r) ∧
      ∀ y r, y ≠ 0x7D#8 → U (y :: r) = y :: U r) ∧
    ∀ s : State, exec (.unescape []) s = .next { s with result := .bytes [] } ∧
      ∀ b0 rest, exec (.unescape (b0 :: rest)) s = .next { s with result := .bytes (b0 :: U rest) }

/-- Laws of UNESCAPE (40_codec.md R101 (a) to (e)). -/
def Obligations.UnescapeLaws : Prop :=
  (∀ x : Bytes, unescape (escape x) = x) ∧
  (∀ b : Bytes, 0x7D#8 ∉ b.tail → unescape b = b) ∧
  unescape [0x7E#8, 0x7D#8, 0x5D#8, 0x5D#8] = [0x7E#8, 0x7D#8, 0x5D#8] ∧
  unescape [0x7E#8, 0x7D#8, 0x5D#8] = [0x7E#8, 0x7D#8] ∧
  (∀ w : Bytes, escape (unescape w) = w ↔ ∃ x, escape x = w) ∧
  escape (unescape [0x7E#8, 0x7D#8, 0x00#8]) ≠ [0x7E#8, 0x7D#8, 0x00#8] ∧
  ∀ b : Bytes, (unescape b).length ≤ b.length ∧ ((unescape b).length = b.length ↔ 0x7D#8 ∉ b.tail)

/-- VALIDATE (40_codec.md R102, R103): fewer than four bytes; else a declared length that is not the actual one; else a
last byte that does not bring the sum to 0xFF; else valid. The byte at index 0, `x`, does not matter. -/
def Obligations.ValidateVerdict : Prop :=
  ∀ s : State,
    (∀ raw : Bytes, raw.length < 4 → exec (.validate raw) s = .next { s with result := .verdict false .tooShort }) ∧
    ∀ (x h l c : Byte) (fd : Bytes),
      (256 * h.toNat + l.toNat ≠ fd.length →
        exec (.validate (x :: h :: l :: (fd ++ [c]))) s = .next { s with result := .verdict false .lengthMismatch }) ∧
      (256 * h.toNat + l.toNat = fd.length → ((fd.map BitVec.toNat).sum + c.toNat) % 256 ≠ 0xFF →
        exec (.validate (x :: h :: l :: (fd ++ [c]))) s =
          .next { s with result := .verdict false .checksumMismatch }) ∧
      (256 * h.toNat + l.toNat = fd.length → ((fd.map BitVec.toNat).sum + c.toNat) % 256 = 0xFF →
        exec (.validate (x :: h :: l :: (fd ++ [c]))) s = .next { s with result := .verdict true .none })

/-- A frame built with CHECKSUM validates (40_codec.md R104 (a)). -/
def Obligations.FramedDataValidates : Prop :=
  ∀ (fd : Bytes) (s : State), fd.length ≤ 65535 → ∃ c t,
    exec (.checksum fd) s = .next t ∧ t.result = .byte c ∧
    exec (.validate (0x7E#8 :: BitVec.ofNat 8 (fd.length / 256) :: BitVec.ofNat 8 (fd.length % 256) :: (fd ++ [c]))) t =
      .next { t with result := .verdict true .none }

/-- One byte of a valid frame changed (40_codec.md R104 (b)): at index 3 or more a checksum failure, at index 1 or 2 a
length failure, at index 0 still valid. -/
def Obligations.SingleByteMutations : Prop :=
  ∀ (a b : Bytes) (x y : Byte), validate (a ++ x :: b) = (true, .none) → x ≠ y →
    (3 ≤ a.length → validate (a ++ y :: b) = (false, .checksumMismatch)) ∧
    (a.length = 1 ∨ a.length = 2 → validate (a ++ y :: b) = (false, .lengthMismatch)) ∧
    (a.length = 0 → validate (a ++ y :: b) = (true, .none))

/-- Every proper prefix of a valid frame is too short or has the wrong length, and so has a valid frame with bytes appended
(40_codec.md R104 (c)). -/
def Obligations.CutAndExtendedFramesFailByLength : Prop :=
  (∀ p q : Bytes, validate (p ++ q) = (true, .none) → q ≠ [] →
    validate p = if p.length < 4 then (false, .tooShort) else (false, .lengthMismatch)) ∧
  ∀ p q : Bytes, validate p = (true, .none) → q ≠ [] → validate (p ++ q) = (false, .lengthMismatch)

/-! ### The encoder -/

/-- ENCODE of 1 to 65535 bytes (41_encoder.md R110): the frame, escaped exactly when `CTRL.ESC` is set, is returned to the
host, and nothing else changes: ENCODE does no I/O (20_memory.md R47; the host's store of results is log entry 12). -/
def Obligations.EncodeFramesAndEscapes : Prop :=
  ∀ (fd : Bytes) (s : State), 1 ≤ fd.length → fd.length ≤ 65535 → ∃ (c : Byte) (w : Bytes),
    exec (.encode fd) s = .next { s with result := .encoded (.ok w), encoded := s.encoded ++ [w] } ∧
    c.toNat = 255 - (fd.map BitVec.toNat).sum % 256 ∧
    w = (if s.ctrl.esc then
          escape (0x7E#8 :: BitVec.ofNat 8 (fd.length / 256) :: BitVec.ofNat 8 (fd.length % 256) :: (fd ++ [c]))
        else 0x7E#8 :: BitVec.ofNat 8 (fd.length / 256) :: BitVec.ofNat 8 (fd.length % 256) :: (fd ++ [c]))

/-- The refusals of ENCODE (41_encoder.md R111, R112): the operation reports the refusal and writes nothing; that it completes
with the refusal as its result is log entry 13 (from 60_exceptions.md R180, R181). -/
def Obligations.EncodeRefusals : Prop :=
  ∀ (fd : Bytes) (s : State),
    (fd = [] → exec (.encode fd) s = .next { s with result := .encoded (.refuse .emptyFrameData) }) ∧
    (65535 < fd.length → exec (.encode fd) s = .next { s with result := .encoded (.refuse .lengthOverflow) })

/-- DEFRAME of what ENCODE returned gives back the frame data, under the same mode (41_encoder.md R114 (b)). -/
def Obligations.DeframeUndoesEncode : Prop :=
  ∀ (fd : Bytes) (s : State), 1 ≤ fd.length → fd.length ≤ 65535 → ∃ w t,
    exec (.encode fd) s = .next t ∧ t.result = .encoded (.ok w) ∧
    exec (.deframe w) t = .next { t with result := .deframed (.valid fd) }

/-- Laws of ENCODE (41_encoder.md R114 (a), (e), and the first part of (c)): the length in each mode, no marker after index
0 in escaping mode, injectivity. -/
def Obligations.EncodeLaws : Prop :=
  (∀ fd w : Bytes, encodeFrame false fd = .ok w → w.length = fd.length + 4) ∧
  (∀ fd w : Bytes, encodeFrame true fd = .ok w →
    fd.length + 4 ≤ w.length ∧ w.length ≤ 2 * fd.length + 7 ∧ w.head? = some 0x7E#8 ∧ 0x7E#8 ∉ w.tail) ∧
  ∀ (esc : Bool) (fd fd' w : Bytes), encodeFrame esc fd = .ok w → encodeFrame esc fd' = .ok w → fd = fd'

/-! ### The decoder and dispatch -/

/-- DEFRAME (42_dispatch.md R120): unescape exactly when `CTRL.ESC` is set, then validate; a valid frame is stripped of its
first three bytes and its last. -/
def Obligations.DeframeUnescapesThenValidates : Prop :=
  ∀ (raw : Bytes) (s : State),
    let u := if s.ctrl.esc then unescape raw else raw
    ((validate u).1 = true →
      exec (.deframe raw) s = .next { s with result := .deframed (.valid (u.drop 3).dropLast) }) ∧
    (∀ r, validate u = (false, r) → exec (.deframe raw) s = .next { s with result := .deframed (.invalid r) })

/-- Laws of DEFRAME (42_dispatch.md R121 (a) to (d)). -/
def Obligations.DeframeLaws : Prop :=
  (∀ (esc : Bool) (fd w : Bytes), encodeFrame esc fd = .ok w → deframe esc w = .valid fd) ∧
  (∀ (esc : Bool) (raw fd : Bytes), deframe esc raw = .valid fd →
    fd.length + 4 ≤ raw.length ∧ (esc = false → fd.length + 4 = raw.length)) ∧
  deframe true [0x7E#8, 0x00#8, 0x01#8, 0x82#8, 0x7D#8, 0x5D#8] = .valid [0x82#8] ∧
  deframe true [0x7E#8, 0x00#8, 0x7D#8, 0x21#8, 0x82#8, 0x7D#8, 0x5D#8] = .valid [0x82#8] ∧
  deframe true [0x7E#8, 0x00#8, 0x01#8, 0x82#8, 0x7D#8, 0x5D#8, 0x7D#8] = .valid [0x82#8] ∧
  ∀ (esc : Bool) (raw : Bytes), raw.length < 4 → deframe esc raw = .invalid .tooShort

/-- CLASSIFY (42_dispatch.md R122, R135, R136): the six inbound types, every other type, and no type at all. -/
def Obligations.ClassifyByTheTypeByte : Prop :=
  ∀ (s : State) (p : Bytes),
    exec (.classify (0x88#8 :: p)) s = .next { s with result := .classified (.known .localATResponse) } ∧
    exec (.classify (0x8B#8 :: p)) s = .next { s with result := .classified (.known .transmitStatus) } ∧
    exec (.classify (0x8D#8 :: p)) s = .next { s with result := .classified (.known .routeInformation) } ∧
    exec (.classify (0x90#8 :: p)) s = .next { s with result := .classified (.known .receivePacket) } ∧
    exec (.classify (0x91#8 :: p)) s = .next { s with result := .classified (.known .explicitRxIndicator) } ∧
    exec (.classify (0x97#8 :: p)) s = .next { s with result := .classified (.known .remoteATResponse) } ∧
    (∀ t : Byte, t ∉ [0x88#8, 0x8B#8, 0x8D#8, 0x90#8, 0x91#8, 0x97#8] →
      exec (.classify (t :: p)) s = .next { s with result := .classified (.unknown (some t)) }) ∧
    exec (.classify []) s = .next { s with result := .classified (.unknown none) }

/-! ### The Stream Reassembler -/

/-- The outcome of one candidate (43_reassembler.md R145, R149; 60_exceptions.md R189): dropped with VALIDATE's reason, or
delivered as a known or an unknown type. -/
def Obligations.CandidateOutcome : Prop :=
  ∀ (esc : Bool) (raw fd : Bytes) (r : Reason) (k : Kind) (t : Option Byte),
    (deframe esc raw = .invalid r → candidateEvent esc raw = .dropped r raw) ∧
    (deframe esc raw = .valid fd → classify fd = .known k → candidateEvent esc raw = .frame k fd) ∧
    (deframe esc raw = .valid fd → classify fd = .unknown t → candidateEvent esc raw = .unknownType t fd)

/-- FEED (43_reassembler.md R140 to R151), however the work buffer is cut at its markers into `noise`, terminated segments
and a tail: the noise event first; one event per terminated segment, in order; the tail delivered if valid, kept with no
event if invalid and 1 to 3 bytes long, dropped if longer: the default keep window (log entry 5). With no marker all is
noise and the buffer stays empty. Only the buffer, the counters, the receive and event streams and the result change. -/
def Obligations.FeedFollowsTheSegments : Prop :=
  ∀ (s : State) (chunk noise : Bytes), 0x7E#8 ∉ noise →
    let noiseEvs := if noise = [] then [] else [Event.noise noise]
    (s.buf ++ chunk = noise → ∃ t, exec (.feed chunk) s = .next t ∧ t.result = .events noiseEvs ∧ t.buf = [] ∧
      t.events = s.events ++ noiseEvs ∧ t.received = s.received ++ chunk ∧
      t.ctrl = s.ctrl ∧ t.transmitted = s.transmitted ∧ t.encoded = s.encoded ∧ t.host = s.host) ∧
    ∀ (terminated : List Bytes) (tail : Bytes), (∀ g ∈ terminated, 0x7E#8 ∉ g) → 0x7E#8 ∉ tail →
      s.buf ++ chunk = noise ++ terminated.flatMap (0x7E#8 :: ·) ++ 0x7E#8 :: tail →
      ∃ t tailEvs, exec (.feed chunk) s = .next t ∧
        t.result = .events (noiseEvs ++ terminated.map (fun g => candidateEvent s.ctrl.esc (0x7E#8 :: g)) ++ tailEvs) ∧
        t.events = s.events ++ (noiseEvs ++ terminated.map (fun g => candidateEvent s.ctrl.esc (0x7E#8 :: g)) ++ tailEvs) ∧
        (∀ fd, deframe s.ctrl.esc (0x7E#8 :: tail) = .valid fd →
          tailEvs = [candidateEvent s.ctrl.esc (0x7E#8 :: tail)] ∧ t.buf = []) ∧
        (∀ r, deframe s.ctrl.esc (0x7E#8 :: tail) = .invalid r → tail.length + 1 ≤ 3 →
          tailEvs = [] ∧ t.buf = 0x7E#8 :: tail) ∧
        (∀ r, deframe s.ctrl.esc (0x7E#8 :: tail) = .invalid r → 3 < tail.length + 1 →
          tailEvs = [.dropped r (0x7E#8 :: tail)] ∧ t.buf = []) ∧
        t.received = s.received ++ chunk ∧ t.ctrl = s.ctrl ∧
        t.transmitted = s.transmitted ∧ t.encoded = s.encoded ∧ t.host = s.host

/-- FEED moves each counter by the number of its events in the result, bytes for `N_NOISE`, modulo `2^CNT_W`
(10_state.md R28, 00_scope.md R11; CNT_W is 32 here, log entry 6). -/
def Obligations.FeedCountsItsEvents : Prop :=
  ∀ (s : State) (chunk : Bytes), ∃ t es, exec (.feed chunk) s = .next t ∧ t.result = .events es ∧
    t.nFrame.toNat = (s.nFrame.toNat + es.countP Event.isFrame) % 2 ^ Config.cntW ∧
    t.nUnknown.toNat = (s.nUnknown.toNat + es.countP Event.isUnknown) % 2 ^ Config.cntW ∧
    t.nShort.toNat = (s.nShort.toNat + es.countP (Event.isDropped .tooShort)) % 2 ^ Config.cntW ∧
    t.nLen.toNat = (s.nLen.toNat + es.countP (Event.isDropped .lengthMismatch)) % 2 ^ Config.cntW ∧
    t.nCk.toNat = (s.nCk.toNat + es.countP (Event.isDropped .checksumMismatch)) % 2 ^ Config.cntW ∧
    t.nNoise.toNat = (s.nNoise.toNat + (es.map Event.noiseBytes).sum) % 2 ^ Config.cntW

/-- An empty chunk changes nothing (43_reassembler.md R154): no event, buffer and counters as they were. It is stated for the
default keep window (log entries 5, 19). -/
def Obligations.EmptyChunkChangesNothing : Prop :=
  ∀ s : State, BufInv keepWindow s.buf → exec (.feed []) s = .next { s with result := .events [] }

/-- One ENCODE result fed from an empty buffer (41_encoder.md R114 (c), (d)): in escaping mode it gives exactly its own
event and leaves the buffer empty; in the other mode it does so exactly when no byte after the marker is 0x7E. -/
def Obligations.LoopBackDelivers : Prop :=
  ∀ (s : State) (fd w : Bytes), s.buf = [] → encodeFrame s.ctrl.esc fd = .ok w →
    ∃ t es, exec (.feed w) s = .next t ∧ t.result = .events es ∧
      (es = [deliverEvent fd] ∧ t.buf = [] ↔ s.ctrl.esc = true ∨
        0x7E#8 ∉ [BitVec.ofNat 8 (fd.length / 256), BitVec.ofNat 8 (fd.length % 256)] ++ fd ++ [checksum fd])

/-- Conservation (43_reassembler.md R161; 20_memory.md R45, R52): the old buffer and the chunk are, in stream order, the runs
of bytes the events report, one run an event, followed by the new buffer. Nothing is lost, doubled or reordered. -/
def Obligations.FeedConservesBytes : Prop :=
  ∀ (s : State) (chunk : Bytes), ∃ t es, exec (.feed chunk) s = .next t ∧ t.result = .events es ∧
    ∃ pieces : List Bytes, s.buf ++ chunk = pieces.flatten ++ t.buf ∧ List.Forall₂ (Explains s.ctrl.esc) pieces es

/-- Partition independence on its domain (43_reassembler.md R159 (a)): wire frames cut into chunks at safe places only give
one event each, in order, and leave the buffer empty; for every keep window and both modes. -/
def Obligations.SafeCutsDeliverEveryFrame : Prop :=
  ∀ (w : Window) (esc : Bool) (fds frames chunks : List Bytes), w.wf →
    List.Forall₂ (WireFrame esc) fds frames → chunks.flatten = frames.flatten →
    (∀ k ≤ chunks.length, SafeCut w frames (chunks.take k).flatten.length) →
    feedChunks w esc [] chunks = (fds.map deliverEvent, [])

/-- After a safe cut inside a frame the buffer holds the bytes of the frame received so far, and feeding the rest completes
it (43_reassembler.md R159 (c)). -/
def Obligations.SafeCutKeepsTheHead : Prop :=
  ∀ (w : Window) (esc : Bool) (fd head rest : Bytes), WireFrame esc fd (head ++ rest) → rest ≠ [] →
    1 ≤ head.length → w.keeps head.length →
    reassemble w esc [] head = ([], head) ∧ reassemble w esc head rest = ([deliverEvent fd], [])

/-- A cut past the keep window, which is the default one (KEEP_HI is 3: log entry 5), loses the frame (43_reassembler.md
R159 (b), R148; 70_reset_and_hazards.md R216): its head is dropped, never as a checksum failure, its remainder is noise. -/
def Obligations.UnsafeCutLosesTheFrame : Prop :=
  ∀ (s : State) (fd head rest : Bytes), s.buf = [] → WireFrame s.ctrl.esc fd (head ++ rest) → rest ≠ [] →
    3 < head.length → ∃ t u r, exec (.feed head) s = .next t ∧ exec (.feed rest) t = .next u ∧
      t.result = .events [.dropped r head] ∧ (r = .lengthMismatch ∨ r = .tooShort) ∧ t.buf = [] ∧
      u.result = .events [.noise rest] ∧ u.buf = []

/-- Under the default keep window (log entry 5) byte-at-a-time feeding delivers no frame longer than four wire bytes
(43_reassembler.md R160): three bytes are kept, the fourth makes a tail that is dropped, never as a checksum failure, the
rest is noise. -/
def Obligations.ByteSerialFeedingDeliversNothing : Prop :=
  ∀ (s : State) (fd f : Bytes), s.buf = [] → WireFrame s.ctrl.esc fd f →
    ∃ t r, runAll (f.map (fun b => .feed [b])) s = .next t ∧ t.buf = [] ∧ (r = .lengthMismatch ∨ r = .tooShort) ∧
      t.events = s.events ++ .dropped r (f.take 4) :: (f.drop 4).map (fun b => .noise [b])

/-- Writing `CTRL.ESC` leaves a kept tail as it is; the next FEED judges it under the new mode (43_reassembler.md R157). -/
def Obligations.ModeWriteRejudgesTheKeptTail : Prop :=
  ∀ (s : State) (v : Byte) (chunk : Bytes), ∃ t u, exec (.csrWrite 0#4 v) s = .next t ∧ t.buf = s.buf ∧
    exec (.feed chunk) t = .next u ∧
    u.result = .events (reassemble keepWindow (v.getLsbD 0) s.buf chunk).1 ∧
    u.buf = (reassemble keepWindow (v.getLsbD 0) s.buf chunk).2

/-- The streams (10_state.md R34; 20_memory.md R47): FEED appends its chunk and its events and writes nothing to the transmit
stream; ENCODE hands its byte string to the host and writes nothing to it either; the host's write of a byte string that
ENCODE returned, once or again, appends it, of one that it did not has no step (log entry 12), and a failed one appends
nothing (60_exceptions.md R187). RESET begins the receive and event streams anew and leaves the host's side as it is (log
entry 3). -/
def Obligations.StreamRecords : Prop :=
  ∀ s : State,
    (∀ chunk, ∃ t es, exec (.feed chunk) s = .next t ∧ t.result = .events es ∧ t.received = s.received ++ chunk ∧
      t.events = s.events ++ es ∧ t.transmitted = s.transmitted) ∧
    (∀ fd, ∃ t e, exec (.encode fd) s = .next t ∧ t.result = .encoded e ∧ t.transmitted = s.transmitted ∧
      (∀ w, e = .ok w → t.encoded = s.encoded ++ [w]) ∧ (∀ why, e = .refuse why → t.encoded = s.encoded)) ∧
    (∀ (w : Bytes) (rest : List Turn), s.host = .write w :: rest →
      (w ∈ s.encoded → step s = .next { s with transmitted := s.transmitted ++ w, host := rest }) ∧
      (w ∉ s.encoded → step s = .refused .unreturnedBytesWritten)) ∧
    (∀ rest : List Turn, s.host = .transportFailure :: rest → ∃ t, step s = .next t ∧ t.transmitted = s.transmitted) ∧
    ∃ t, exec .reset s = .next t ∧ t.received = [] ∧ t.events = [] ∧ t.transmitted = s.transmitted ∧
      t.encoded = s.encoded ∧ t.host = s.host

/-! ### The wire items and the frame types of the table -/

/-- START_MARKER (30_encoding.md R69, 43_reassembler.md R155; that the row is a FEED of the marker is log entry 10): it is
that FEED in every state. Under the default keep window (log entry 5) the marker ends the candidate in the buffer, which is
too short by the buffer invariant, and opens the next. -/
def Obligations.StartMarkerOpensACandidate : Prop :=
  ∀ s : State,
    exec .startMarker s = exec (.feed [0x7E#8]) s ∧
    (BufInv keepWindow s.buf →
      let evs := if s.buf = [] then [] else [Event.dropped .tooShort s.buf]
      ∃ t, exec .startMarker s = .next t ∧ t.buf = [0x7E#8] ∧ t.result = .events evs ∧ t.events = s.events ++ evs ∧
        t.nShort = (if s.buf = [] then s.nShort else s.nShort + 1) ∧
        t.nFrame = s.nFrame ∧ t.nUnknown = s.nUnknown ∧ t.nLen = s.nLen ∧ t.nCk = s.nCk ∧ t.nNoise = s.nNoise ∧
        t.received = s.received ++ [0x7E#8] ∧ t.ctrl = s.ctrl ∧
        t.transmitted = s.transmitted ∧ t.encoded = s.encoded ∧ t.host = s.host)

/-- The escape pairs as they arrive (30_encoding.md R65, R75; 40_codec.md R99; that the row is a FEED of its two bytes is
log entry 10): noise where no candidate is open; under the default keep window (log entry 5) kept with a lone marker, else
the candidate is judged with them. A pair whose second byte is the marker is a cut, not a pair (R75 (d)). -/
def Obligations.EscapePairsArrive : Prop :=
  ∀ (i : Instr) (b : Byte) (s : State), (i, b) ∈ pairRows ∨ i = .escAny b → BufInv keepWindow s.buf →
    exec i s = exec (.feed [0x7D#8, b]) s ∧
    ∃ t es, exec i s = .next t ∧ t.result = .events es ∧ t.events = s.events ++ es ∧
      t.received = s.received ++ [0x7D#8, b] ∧ t.ctrl = s.ctrl ∧
      t.transmitted = s.transmitted ∧ t.encoded = s.encoded ∧ t.host = s.host ∧
      (b ≠ 0x7E#8 → s.buf = [] → t.result = .events [.noise [0x7D#8, b]] ∧ t.buf = []) ∧
      (b ≠ 0x7E#8 → s.buf = [0x7E#8] → t.result = .events [] ∧ t.buf = [0x7E#8, 0x7D#8, b]) ∧
      (b ≠ 0x7E#8 → 2 ≤ s.buf.length →
        t.result = .events [candidateEvent s.ctrl.esc (s.buf ++ [0x7D#8, b])] ∧ t.buf = []) ∧
      (b = 0x7E#8 → t.buf = [0x7E#8] ∧
        t.result = .events [if s.buf = [] then .noise [0x7D#8] else candidateEvent s.ctrl.esc (s.buf ++ [0x7D#8])])

/-- An escape pair stands for one logical byte (30_encoding.md R65, R67; 40_codec.md R99): after any escaped bytes, UNESCAPE
reads `7D b` as `b XOR 20`; and the four pairs of the table stand for 7E, 7D, 11, 13. -/
def Obligations.EscapePairsStandForOneByte : Prop :=
  (∀ (x r : Bytes) (b0 b : Byte),
    unescape (escape (b0 :: x) ++ 0x7D#8 :: b :: r) = b0 :: (x ++ (b ^^^ 0x20#8) :: (unescape (b0 :: r)).tail)) ∧
  pairRows.map (fun p => p.2 ^^^ 0x20#8) = [0x7E#8, 0x7D#8, 0x11#8, 0x13#8] ∧
  ∀ (b0 b : Byte), b ∈ escSet → escape [b0, b] = [b0, 0x7D#8, b ^^^ 0x20#8]

/-- FRAME (30_encoding.md R60, R64; that the row is a FEED of its wire form is log entry 10): it is that FEED in every state.
Where the wire form holds no further marker, under the default keep window (log entry 5), a kept tail is dropped, and the
frame is delivered if VALIDATE accepts it and dropped with VALIDATE's reason if not; the buffer is left empty. -/
def Obligations.FrameRowIsDeliveredOrDropped : Prop :=
  ∀ (h l c : Byte) (fd : Bytes) (s : State),
    let raw := 0x7E#8 :: h :: l :: (fd ++ [c])
    let wire := if s.ctrl.esc then escape raw else raw
    exec (.frame h l fd c) s = exec (.feed wire) s ∧
    (BufInv keepWindow s.buf → (s.ctrl.esc = true ∨ 0x7E#8 ∉ h :: l :: (fd ++ [c])) →
      ∃ t e, exec (.frame h l fd c) s = .next t ∧ t.buf = [] ∧
        t.result = .events ((if s.buf = [] then [] else [.dropped .tooShort s.buf]) ++ [e]) ∧
        t.events = s.events ++ ((if s.buf = [] then [] else [.dropped .tooShort s.buf]) ++ [e]) ∧
        (validate raw = (true, .none) → e = deliverEvent fd) ∧
        (∀ r, validate raw = (false, r) → e = .dropped r wire) ∧
        t.received = s.received ++ wire ∧ t.ctrl = s.ctrl ∧
        t.transmitted = s.transmitted ∧ t.encoded = s.encoded ∧ t.host = s.host)

/-- The six inbound frame types (42_dispatch.md R124 to R129; that the row received is a FEED of its frame's wire form is log
entry 11): CLASSIFY gives the variant; received, the row is that FEED in every state, and from an empty buffer, in a form with
no further marker, it gives one `Frame` event and counts one. -/
def Obligations.InboundFrameTypesAreDelivered : Prop :=
  ∀ row ∈ inboundRows, ∀ (p : Bytes) (s : State),
    (∃ c, exec (.classify (row.2.1 :: p)) s = .next c ∧ c.result = .classified (.known row.2.2)) ∧
    exec (row.1 .inbound p) s = exec (.feed (onWire s.ctrl.esc (rawFrame (row.2.1 :: p)))) s ∧
    (p.length + 1 ≤ 65535 → s.buf = [] →
      (s.ctrl.esc = true ∨ 0x7E#8 ∉ (rawFrame (row.2.1 :: p)).tail) →
      ∃ t, exec (row.1 .inbound p) s = .next t ∧ t.result = .events [.frame row.2.2 (row.2.1 :: p)] ∧ t.buf = [] ∧
        t.events = s.events ++ [.frame row.2.2 (row.2.1 :: p)] ∧ t.nFrame = s.nFrame + 1 ∧
        t.received = s.received ++ onWire s.ctrl.esc (rawFrame (row.2.1 :: p)) ∧
        t.nUnknown = s.nUnknown ∧ t.nShort = s.nShort ∧ t.nLen = s.nLen ∧ t.nCk = s.nCk ∧ t.nNoise = s.nNoise ∧
        t.ctrl = s.ctrl ∧ t.transmitted = s.transmitted ∧ t.encoded = s.encoded ∧ t.host = s.host)

/-- The five outbound frame types (42_dispatch.md R130 to R134; 41_encoder.md R113; the row in each direction: log entry 11;
the host's store of what ENCODE returned: log entry 12): CLASSIFY gives `Unknown`; sent, the frame is encoded without a look
at its type; received, the row is a FEED of its frame's wire form, and from an empty buffer, in a form with no further
marker, an `UnknownType` event that counts one there. -/
def Obligations.OutboundFrameTypes : Prop :=
  ∀ row ∈ outboundRows, ∀ (p : Bytes) (s : State),
    (∃ c, exec (.classify (row.2 :: p)) s = .next c ∧ c.result = .classified (.unknown (some row.2))) ∧
    exec (row.1 .outbound p) s = exec (.encode (row.2 :: p)) s ∧
    exec (row.1 .inbound p) s = exec (.feed (onWire s.ctrl.esc (rawFrame (row.2 :: p)))) s ∧
    (p.length + 1 ≤ 65535 →
      exec (row.1 .outbound p) s = .next { s with
        result := .encoded (.ok (onWire s.ctrl.esc (rawFrame (row.2 :: p))))
        encoded := s.encoded ++ [onWire s.ctrl.esc (rawFrame (row.2 :: p))] } ∧
      (s.buf = [] → (s.ctrl.esc = true ∨ 0x7E#8 ∉ (rawFrame (row.2 :: p)).tail) →
        ∃ t, exec (row.1 .inbound p) s = .next t ∧ t.result = .events [.unknownType (some row.2) (row.2 :: p)] ∧
          t.events = s.events ++ [.unknownType (some row.2) (row.2 :: p)] ∧
          t.received = s.received ++ onWire s.ctrl.esc (rawFrame (row.2 :: p)) ∧
          t.buf = [] ∧ t.nUnknown = s.nUnknown + 1 ∧ t.nFrame = s.nFrame ∧ t.nShort = s.nShort ∧ t.nLen = s.nLen ∧
          t.nCk = s.nCk ∧ t.nNoise = s.nNoise ∧ t.ctrl = s.ctrl ∧
          t.transmitted = s.transmitted ∧ t.encoded = s.encoded ∧ t.host = s.host))

/-- The inbound types sent, which ENCODE frames like any other (41_encoder.md R113), and UNKNOWN_TYPE in both directions
(42_dispatch.md R135, R136; 30_encoding.md R77; the row in each direction: log entry 11): sent, an ENCODE of the frame data in
every state (the host's store of what it returned: log entry 12), which with no type at all refuses (R111; that it completes
with the refusal as its result is log entry 13, from 60_exceptions.md R180, R181); received, a FEED of the frame's wire form;
a type of no row, or none at all, is an `UnknownType` event. -/
def Obligations.OtherDirectionsAndUnknownTypes : Prop :=
  (∀ (t : Option Byte) (p : Bytes) (s : State), exec (.unknownType .inbound t p) s =
    exec (.feed (onWire s.ctrl.esc (rawFrame (t.toList ++ p)))) s) ∧
  (∀ row ∈ inboundRows, ∀ (p : Bytes) (s : State), exec (row.1 .outbound p) s = exec (.encode (row.2.1 :: p)) s ∧
    (p.length + 1 ≤ 65535 → exec (row.1 .outbound p) s = .next { s with
      result := .encoded (.ok (onWire s.ctrl.esc (rawFrame (row.2.1 :: p))))
      encoded := s.encoded ++ [onWire s.ctrl.esc (rawFrame (row.2.1 :: p))] })) ∧
  (∀ (t : Option Byte) (p : Bytes) (s : State),
    exec (.unknownType .outbound t p) s = exec (.encode (t.toList ++ p)) s) ∧
  (∀ (t : Option Byte) (p : Bytes) (s : State), WellFormed (.unknownType .inbound t p) → s.buf = [] →
    (s.ctrl.esc = true ∨ 0x7E#8 ∉ (rawFrame (t.toList ++ p)).tail) →
    ∃ u, exec (.unknownType .inbound t p) s = .next u ∧ u.result = .events [.unknownType t (t.toList ++ p)] ∧
      u.events = s.events ++ [.unknownType t (t.toList ++ p)] ∧
      u.received = s.received ++ onWire s.ctrl.esc (rawFrame (t.toList ++ p)) ∧
      u.buf = [] ∧ u.nUnknown = s.nUnknown + 1 ∧ u.nFrame = s.nFrame ∧ u.nShort = s.nShort ∧ u.nLen = s.nLen ∧
      u.nCk = s.nCk ∧ u.nNoise = s.nNoise ∧ u.ctrl = s.ctrl ∧
      u.transmitted = s.transmitted ∧ u.encoded = s.encoded ∧ u.host = s.host) ∧
  (∀ (b : Byte) (p : Bytes) (s : State), p.length + 1 ≤ 65535 →
    exec (.unknownType .outbound (some b) p) s = .next { s with
      result := .encoded (.ok (onWire s.ctrl.esc (rawFrame (b :: p))))
      encoded := s.encoded ++ [onWire s.ctrl.esc (rawFrame (b :: p))] }) ∧
  ∀ s : State, exec (.unknownType .outbound none []) s =
    .next { s with result := .encoded (.refuse .emptyFrameData) }

/-! ### Conditions -/

/-- The condition codes (60_exceptions.md R181), for the verdicts, the refusals and the events. -/
def Obligations.ConditionCodes : Prop :=
  (∀ raw : Bytes, (validate raw).2.condition.code =
    if raw.length < 4 then 1
    else if 256 * (byteAt raw 1).toNat + (byteAt raw 2).toNat ≠ raw.length - 4 then 2
    else if (validate raw).1 = false then 3 else 0) ∧
  (∀ (esc : Bool) (fd : Bytes) (e : EncodeRefusal), encodeFrame esc fd = .refuse e →
    e.condition.code = if fd = [] then 6 else 7) ∧
  (∀ (esc : Bool) (raw : Bytes) (r : Reason), deframe esc raw = .invalid r →
    (candidateEvent esc raw).condition.code = r.condition.code ∧ r.condition.code ≠ 0) ∧
  (∀ (fd : Bytes) (k : Kind), classify fd = .known k → (deliverEvent fd).condition.code = 0) ∧
  (∀ (fd : Bytes) (t : Option Byte), classify fd = .unknown t → (deliverEvent fd).condition.code = 4) ∧
  ∀ bs : Bytes, (Event.noise bs).condition.code = 5

/-! ### Invariants every step keeps -/

/-- The buffer invariant (10_state.md R23): from every state that meets it, a step gives a state that meets it. -/
def Obligations.StepKeepsTheBufferInvariant : Prop :=
  ∀ s t : State, step s = .next t → BufInv keepWindow s.buf → BufInv keepWindow t.buf

/-- The counter law (10_state.md R30): each counter stays the number of events of its kind since the last RESET, modulo
`2^CNT_W`. -/
def Obligations.StepKeepsTheCounterLaw : Prop :=
  ∀ s t : State, step s = .next t → CounterLaw s → CounterLaw t

/-- Every byte received stays accounted for, in stream order: in one event, or in the buffer (20_memory.md R45,
43_reassembler.md R161); and the transmit stream stays byte strings that ENCODE returned and the host wrote (10_state.md
R34; 20_memory.md R47). What RESET does to the records is log entry 3, the host's store and its write log entry 12. -/
def Obligations.StepKeepsTheAccount : Prop :=
  ∀ s t : State, step s = .next t → (Accounted s → Accounted t) ∧ (TransmitLaw s → TransmitLaw t)

/-- The power-on state meets the four invariants (10_state.md R23, R30, R34, R37; 20_memory.md R45, R47). That the records and
the host's store are empty there is the model's choice, log entries 3 and 12. -/
def Obligations.ResetMeetsTheInvariants : Prop :=
  BufInv keepWindow State.reset.buf ∧ CounterLaw State.reset ∧ Accounted State.reset ∧ TransmitLaw State.reset

/-! ### Whole-machine rules -/

/-- Only a FEED and RESET write the buffer, the counters, the receive stream and the event stream (10_state.md R21, R28,
R30). -/
def Obligations.OnlyFeedAndResetWriteTheReceiver : Prop :=
  ∀ (i : Instr) (s t : State), exec i s = .next t → rowFeeds i = false → i ≠ .reset →
    t.buf = s.buf ∧ t.nFrame = s.nFrame ∧ t.nUnknown = s.nUnknown ∧ t.nShort = s.nShort ∧ t.nLen = s.nLen ∧
    t.nCk = s.nCk ∧ t.nNoise = s.nNoise ∧ t.received = s.received ∧ t.events = s.events

/-- Only CSR_WRITE and RESET write `CTRL`, only an ENCODE adds to what the host may write, no instruction writes the transmit
stream or what the host presents (10_state.md R26, R34; 43_reassembler.md R162): a step adds to the transmit stream only
where the host writes, and then the byte string it writes (20_memory.md R47). -/
def Obligations.OnlyTheirOwnersWriteModeAndTransmitStream : Prop :=
  (∀ (i : Instr) (s t : State), exec i s = .next t →
    t.host = s.host ∧ t.transmitted = s.transmitted ∧
    (i ≠ .reset → (∀ id v, i ≠ .csrWrite id v) → t.ctrl = s.ctrl) ∧
    (rowEncodes i = false → t.encoded = s.encoded)) ∧
  ∀ s t : State, step s = .next t → t.transmitted = s.transmitted ∨
    ∃ w rest, s.host = .write w :: rest ∧ w ∈ s.encoded ∧ t.transmitted = s.transmitted ++ w

/-- The two directions are independent (10_state.md R34): ENCODE returns the same whatever the receiver holds, and FEED gives
the same events and buffer whatever was sent. -/
def Obligations.DirectionsAreIndependent : Prop :=
  ∀ (s s' : State), s.ctrl = s'.ctrl →
    (∀ fd, ∃ t t', exec (.encode fd) s = .next t ∧ exec (.encode fd) s' = .next t' ∧ t.result = t'.result) ∧
    (s.buf = s'.buf → ∀ chunk, ∃ t t', exec (.feed chunk) s = .next t ∧ exec (.feed chunk) s' = .next t' ∧
      t.result = t'.result ∧ t.buf = t'.buf)

/-- A partial frame waits (20_memory.md R58): the buffer stays through any number of FEEDs of an empty chunk and of
operations that are neither a FEED nor RESET, mode changes among them. It is stated for the default keep window (log
entries 5, 19). -/
def Obligations.PartialFrameWaits : Prop :=
  ∀ (is : List Instr) (s : State), BufInv keepWindow s.buf →
    (∀ i ∈ is, i ≠ .reset ∧ (rowFeeds i = false ∨ i = .feed [])) →
    ∃ t, runAll is s = .next t ∧ t.buf = s.buf
end

