-- ==== Sys2Proof/Laws/State.lean ====
section
/-! SUPPORT. One lemma per field per named update of the state, true by rfl, so that no later proof unfolds a record
update. -/

namespace Sys2Proof.Machine

/-! ### The result port -/

@[simp] theorem State.returning_buf (s : State) (r : Result) : (s.returning r).buf = s.buf := rfl
@[simp] theorem State.returning_ctrl (s : State) (r : Result) : (s.returning r).ctrl = s.ctrl := rfl
@[simp] theorem State.returning_nFrame (s : State) (r : Result) : (s.returning r).nFrame = s.nFrame := rfl
@[simp] theorem State.returning_nUnknown (s : State) (r : Result) : (s.returning r).nUnknown = s.nUnknown := rfl
@[simp] theorem State.returning_nShort (s : State) (r : Result) : (s.returning r).nShort = s.nShort := rfl
@[simp] theorem State.returning_nLen (s : State) (r : Result) : (s.returning r).nLen = s.nLen := rfl
@[simp] theorem State.returning_nCk (s : State) (r : Result) : (s.returning r).nCk = s.nCk := rfl
@[simp] theorem State.returning_nNoise (s : State) (r : Result) : (s.returning r).nNoise = s.nNoise := rfl
@[simp] theorem State.returning_received (s : State) (r : Result) : (s.returning r).received = s.received := rfl
@[simp] theorem State.returning_transmitted (s : State) (r : Result) : (s.returning r).transmitted = s.transmitted := rfl
@[simp] theorem State.returning_events (s : State) (r : Result) : (s.returning r).events = s.events := rfl
@[simp] theorem State.returning_encoded (s : State) (r : Result) : (s.returning r).encoded = s.encoded := rfl
@[simp] theorem State.returning_result (s : State) (r : Result) : (s.returning r).result = r := rfl
@[simp] theorem State.returning_host (s : State) (r : Result) : (s.returning r).host = s.host := rfl

/-! ### The event stream and the counters: one event -/

@[simp] theorem State.emit_buf (s : State) (e : Event) : (s.emit e).buf = s.buf := rfl
@[simp] theorem State.emit_ctrl (s : State) (e : Event) : (s.emit e).ctrl = s.ctrl := rfl
@[simp] theorem State.emit_nFrame (s : State) (e : Event) : (s.emit e).nFrame = s.nFrame.add (e.weight .nFrame) := rfl
@[simp] theorem State.emit_nUnknown (s : State) (e : Event) : (s.emit e).nUnknown = s.nUnknown.add (e.weight .nUnknown) := rfl
@[simp] theorem State.emit_nShort (s : State) (e : Event) : (s.emit e).nShort = s.nShort.add (e.weight .nShort) := rfl
@[simp] theorem State.emit_nLen (s : State) (e : Event) : (s.emit e).nLen = s.nLen.add (e.weight .nLen) := rfl
@[simp] theorem State.emit_nCk (s : State) (e : Event) : (s.emit e).nCk = s.nCk.add (e.weight .nCk) := rfl
@[simp] theorem State.emit_nNoise (s : State) (e : Event) : (s.emit e).nNoise = s.nNoise.add (e.weight .nNoise) := rfl
@[simp] theorem State.emit_received (s : State) (e : Event) : (s.emit e).received = s.received := rfl
@[simp] theorem State.emit_transmitted (s : State) (e : Event) : (s.emit e).transmitted = s.transmitted := rfl
@[simp] theorem State.emit_events (s : State) (e : Event) : (s.emit e).events = s.events ++ [e] := rfl
@[simp] theorem State.emit_encoded (s : State) (e : Event) : (s.emit e).encoded = s.encoded := rfl
@[simp] theorem State.emit_result (s : State) (e : Event) : (s.emit e).result = s.result := rfl
@[simp] theorem State.emit_host (s : State) (e : Event) : (s.emit e).host = s.host := rfl

/-! ### ENCODE -/

@[simp] theorem State.sent_buf (s : State) (fd : Bytes) : (s.sent fd).buf = s.buf := rfl
@[simp] theorem State.sent_ctrl (s : State) (fd : Bytes) : (s.sent fd).ctrl = s.ctrl := rfl
@[simp] theorem State.sent_nFrame (s : State) (fd : Bytes) : (s.sent fd).nFrame = s.nFrame := rfl
@[simp] theorem State.sent_nUnknown (s : State) (fd : Bytes) : (s.sent fd).nUnknown = s.nUnknown := rfl
@[simp] theorem State.sent_nShort (s : State) (fd : Bytes) : (s.sent fd).nShort = s.nShort := rfl
@[simp] theorem State.sent_nLen (s : State) (fd : Bytes) : (s.sent fd).nLen = s.nLen := rfl
@[simp] theorem State.sent_nCk (s : State) (fd : Bytes) : (s.sent fd).nCk = s.nCk := rfl
@[simp] theorem State.sent_nNoise (s : State) (fd : Bytes) : (s.sent fd).nNoise = s.nNoise := rfl
@[simp] theorem State.sent_received (s : State) (fd : Bytes) : (s.sent fd).received = s.received := rfl
@[simp] theorem State.sent_transmitted (s : State) (fd : Bytes) : (s.sent fd).transmitted = s.transmitted := rfl
@[simp] theorem State.sent_events (s : State) (fd : Bytes) : (s.sent fd).events = s.events := rfl
@[simp] theorem State.sent_encoded (s : State) (fd : Bytes) : (s.sent fd).encoded = s.encoded ++ (encodeFrame s.ctrl.esc fd).wires := rfl
@[simp] theorem State.sent_result (s : State) (fd : Bytes) : (s.sent fd).result = .encoded (encodeFrame s.ctrl.esc fd) := rfl
@[simp] theorem State.sent_host (s : State) (fd : Bytes) : (s.sent fd).host = s.host := rfl

/-! ### The host's write -/

@[simp] theorem State.written_buf (s : State) (bytes : Bytes) : (s.written bytes).buf = s.buf := rfl
@[simp] theorem State.written_ctrl (s : State) (bytes : Bytes) : (s.written bytes).ctrl = s.ctrl := rfl
@[simp] theorem State.written_nFrame (s : State) (bytes : Bytes) : (s.written bytes).nFrame = s.nFrame := rfl
@[simp] theorem State.written_nUnknown (s : State) (bytes : Bytes) : (s.written bytes).nUnknown = s.nUnknown := rfl
@[simp] theorem State.written_nShort (s : State) (bytes : Bytes) : (s.written bytes).nShort = s.nShort := rfl
@[simp] theorem State.written_nLen (s : State) (bytes : Bytes) : (s.written bytes).nLen = s.nLen := rfl
@[simp] theorem State.written_nCk (s : State) (bytes : Bytes) : (s.written bytes).nCk = s.nCk := rfl
@[simp] theorem State.written_nNoise (s : State) (bytes : Bytes) : (s.written bytes).nNoise = s.nNoise := rfl
@[simp] theorem State.written_received (s : State) (bytes : Bytes) : (s.written bytes).received = s.received := rfl
@[simp] theorem State.written_transmitted (s : State) (bytes : Bytes) : (s.written bytes).transmitted = s.transmitted ++ bytes := rfl
@[simp] theorem State.written_events (s : State) (bytes : Bytes) : (s.written bytes).events = s.events := rfl
@[simp] theorem State.written_encoded (s : State) (bytes : Bytes) : (s.written bytes).encoded = s.encoded := rfl
@[simp] theorem State.written_result (s : State) (bytes : Bytes) : (s.written bytes).result = s.result := rfl
@[simp] theorem State.written_host (s : State) (bytes : Bytes) : (s.written bytes).host = s.host := rfl

/-! ### RESET -/

@[simp] theorem State.restarted_buf (s : State) : s.restarted.buf = [] := rfl
@[simp] theorem State.restarted_ctrl (s : State) : s.restarted.ctrl = { esc := Config.escReset } := rfl
@[simp] theorem State.restarted_nFrame (s : State) : s.restarted.nFrame = 0 := rfl
@[simp] theorem State.restarted_nUnknown (s : State) : s.restarted.nUnknown = 0 := rfl
@[simp] theorem State.restarted_nShort (s : State) : s.restarted.nShort = 0 := rfl
@[simp] theorem State.restarted_nLen (s : State) : s.restarted.nLen = 0 := rfl
@[simp] theorem State.restarted_nCk (s : State) : s.restarted.nCk = 0 := rfl
@[simp] theorem State.restarted_nNoise (s : State) : s.restarted.nNoise = 0 := rfl
@[simp] theorem State.restarted_received (s : State) : s.restarted.received = [] := rfl
@[simp] theorem State.restarted_transmitted (s : State) : s.restarted.transmitted = s.transmitted := rfl
@[simp] theorem State.restarted_events (s : State) : s.restarted.events = [] := rfl
@[simp] theorem State.restarted_encoded (s : State) : s.restarted.encoded = s.encoded := rfl
@[simp] theorem State.restarted_result (s : State) : s.restarted.result = .none := rfl
@[simp] theorem State.restarted_host (s : State) : s.restarted.host = s.host := rfl

/-! ### The host port -/

@[simp] theorem State.withFetchWord_buf (s : State) (nbits w : Nat) : (s.withFetchWord nbits w).buf = s.buf := rfl
@[simp] theorem State.withFetchWord_ctrl (s : State) (nbits w : Nat) : (s.withFetchWord nbits w).ctrl = s.ctrl := rfl
@[simp] theorem State.withFetchWord_nFrame (s : State) (nbits w : Nat) : (s.withFetchWord nbits w).nFrame = s.nFrame := rfl
@[simp] theorem State.withFetchWord_nUnknown (s : State) (nbits w : Nat) : (s.withFetchWord nbits w).nUnknown = s.nUnknown := rfl
@[simp] theorem State.withFetchWord_nShort (s : State) (nbits w : Nat) : (s.withFetchWord nbits w).nShort = s.nShort := rfl
@[simp] theorem State.withFetchWord_nLen (s : State) (nbits w : Nat) : (s.withFetchWord nbits w).nLen = s.nLen := rfl
@[simp] theorem State.withFetchWord_nCk (s : State) (nbits w : Nat) : (s.withFetchWord nbits w).nCk = s.nCk := rfl
@[simp] theorem State.withFetchWord_nNoise (s : State) (nbits w : Nat) : (s.withFetchWord nbits w).nNoise = s.nNoise := rfl
@[simp] theorem State.withFetchWord_received (s : State) (nbits w : Nat) : (s.withFetchWord nbits w).received = s.received := rfl
@[simp] theorem State.withFetchWord_transmitted (s : State) (nbits w : Nat) : (s.withFetchWord nbits w).transmitted = s.transmitted := rfl
@[simp] theorem State.withFetchWord_events (s : State) (nbits w : Nat) : (s.withFetchWord nbits w).events = s.events := rfl
@[simp] theorem State.withFetchWord_encoded (s : State) (nbits w : Nat) : (s.withFetchWord nbits w).encoded = s.encoded := rfl
@[simp] theorem State.withFetchWord_result (s : State) (nbits w : Nat) : (s.withFetchWord nbits w).result = s.result := rfl
@[simp] theorem State.withFetchWord_host (s : State) (nbits w : Nat) : (s.withFetchWord nbits w).host = .present [tableWord nbits w] :: s.host := rfl

/-! ### Several events -/

@[simp] theorem State.emitAll_nil (s : State) : s.emitAll [] = s := rfl

@[simp] theorem State.emitAll_cons (s : State) (e : Event) (es : List Event) :
    s.emitAll (e :: es) = (s.emit e).emitAll es := rfl

@[simp] theorem State.emitAll_buf (s : State) (es : List Event) : (s.emitAll es).buf = s.buf := by
  induction es generalizing s with
  | nil => rfl
  | cons e es ih => simp [ih]

@[simp] theorem State.emitAll_ctrl (s : State) (es : List Event) : (s.emitAll es).ctrl = s.ctrl := by
  induction es generalizing s with
  | nil => rfl
  | cons e es ih => simp [ih]

@[simp] theorem State.emitAll_received (s : State) (es : List Event) : (s.emitAll es).received = s.received := by
  induction es generalizing s with
  | nil => rfl
  | cons e es ih => simp [ih]

@[simp] theorem State.emitAll_transmitted (s : State) (es : List Event) : (s.emitAll es).transmitted = s.transmitted := by
  induction es generalizing s with
  | nil => rfl
  | cons e es ih => simp [ih]

@[simp] theorem State.emitAll_encoded (s : State) (es : List Event) : (s.emitAll es).encoded = s.encoded := by
  induction es generalizing s with
  | nil => rfl
  | cons e es ih => simp [ih]

@[simp] theorem State.emitAll_result (s : State) (es : List Event) : (s.emitAll es).result = s.result := by
  induction es generalizing s with
  | nil => rfl
  | cons e es ih => simp [ih]

@[simp] theorem State.emitAll_host (s : State) (es : List Event) : (s.emitAll es).host = s.host := by
  induction es generalizing s with
  | nil => rfl
  | cons e es ih => simp [ih]

@[simp] theorem State.emitAll_events (s : State) (es : List Event) : (s.emitAll es).events = s.events ++ es := by
  induction es generalizing s with
  | nil => simp
  | cons e es ih => simp [ih]

theorem Counter.add_toNat (c : Counter) (k : Nat) :
    (c.add k).toNat = (c.toNat + k) % 2 ^ Config.cntW := by
  simp [Counter.add, BitVec.toNat_add]

@[simp] theorem Counter.add_zero (c : Counter) : c.add 0 = c := by simp [Counter.add]

theorem Counter.add_add (c : Counter) (j k : Nat) : (c.add j).add k = c.add (j + k) := by
  apply BitVec.eq_of_toNat_eq
  simp only [Counter.add_toNat, Nat.mod_add_mod, Nat.add_assoc]

/-- `nFrame` after a pass: it moves by the sum of what the events weigh in it. -/
@[simp] theorem State.emitAll_nFrame (s : State) (es : List Event) :
    (s.emitAll es).nFrame = s.nFrame.add (es.map (Event.weight .nFrame)).sum := by
  induction es generalizing s with
  | nil => simp
  | cons e es ih => simp [ih, Counter.add_add]

/-- `nUnknown` after a pass: it moves by the sum of what the events weigh in it. -/
@[simp] theorem State.emitAll_nUnknown (s : State) (es : List Event) :
    (s.emitAll es).nUnknown = s.nUnknown.add (es.map (Event.weight .nUnknown)).sum := by
  induction es generalizing s with
  | nil => simp
  | cons e es ih => simp [ih, Counter.add_add]

/-- `nShort` after a pass: it moves by the sum of what the events weigh in it. -/
@[simp] theorem State.emitAll_nShort (s : State) (es : List Event) :
    (s.emitAll es).nShort = s.nShort.add (es.map (Event.weight .nShort)).sum := by
  induction es generalizing s with
  | nil => simp
  | cons e es ih => simp [ih, Counter.add_add]

/-- `nLen` after a pass: it moves by the sum of what the events weigh in it. -/
@[simp] theorem State.emitAll_nLen (s : State) (es : List Event) :
    (s.emitAll es).nLen = s.nLen.add (es.map (Event.weight .nLen)).sum := by
  induction es generalizing s with
  | nil => simp
  | cons e es ih => simp [ih, Counter.add_add]

/-- `nCk` after a pass: it moves by the sum of what the events weigh in it. -/
@[simp] theorem State.emitAll_nCk (s : State) (es : List Event) :
    (s.emitAll es).nCk = s.nCk.add (es.map (Event.weight .nCk)).sum := by
  induction es generalizing s with
  | nil => simp
  | cons e es ih => simp [ih, Counter.add_add]

/-- `nNoise` after a pass: it moves by the sum of what the events weigh in it. -/
@[simp] theorem State.emitAll_nNoise (s : State) (es : List Event) :
    (s.emitAll es).nNoise = s.nNoise.add (es.map (Event.weight .nNoise)).sum := by
  induction es generalizing s with
  | nil => simp
  | cons e es ih => simp [ih, Counter.add_add]

/-! ### FEED -/

/-- The pass FEED makes on `s` for a window. -/
theorem State.fed_eq (w : Window) (s : State) (chunk : Bytes) :
    s.fed w chunk =
      { s.emitAll (reassemble w s.ctrl.esc s.buf chunk).1 with
        buf := (reassemble w s.ctrl.esc s.buf chunk).2
        received := s.received ++ chunk
        result := .events (reassemble w s.ctrl.esc s.buf chunk).1 } := rfl

@[simp] theorem State.fed_buf (w : Window) (s : State) (chunk : Bytes) :
    (s.fed w chunk).buf = (reassemble w s.ctrl.esc s.buf chunk).2 := by simp [State.fed_eq]

@[simp] theorem State.fed_ctrl (w : Window) (s : State) (chunk : Bytes) :
    (s.fed w chunk).ctrl = s.ctrl := by simp [State.fed_eq]

@[simp] theorem State.fed_nFrame (w : Window) (s : State) (chunk : Bytes) :
    (s.fed w chunk).nFrame = s.nFrame.add ((reassemble w s.ctrl.esc s.buf chunk).1.map (Event.weight .nFrame)).sum := by simp [State.fed_eq]

@[simp] theorem State.fed_nUnknown (w : Window) (s : State) (chunk : Bytes) :
    (s.fed w chunk).nUnknown = s.nUnknown.add ((reassemble w s.ctrl.esc s.buf chunk).1.map (Event.weight .nUnknown)).sum := by simp [State.fed_eq]

@[simp] theorem State.fed_nShort (w : Window) (s : State) (chunk : Bytes) :
    (s.fed w chunk).nShort = s.nShort.add ((reassemble w s.ctrl.esc s.buf chunk).1.map (Event.weight .nShort)).sum := by simp [State.fed_eq]

@[simp] theorem State.fed_nLen (w : Window) (s : State) (chunk : Bytes) :
    (s.fed w chunk).nLen = s.nLen.add ((reassemble w s.ctrl.esc s.buf chunk).1.map (Event.weight .nLen)).sum := by simp [State.fed_eq]

@[simp] theorem State.fed_nCk (w : Window) (s : State) (chunk : Bytes) :
    (s.fed w chunk).nCk = s.nCk.add ((reassemble w s.ctrl.esc s.buf chunk).1.map (Event.weight .nCk)).sum := by simp [State.fed_eq]

@[simp] theorem State.fed_nNoise (w : Window) (s : State) (chunk : Bytes) :
    (s.fed w chunk).nNoise = s.nNoise.add ((reassemble w s.ctrl.esc s.buf chunk).1.map (Event.weight .nNoise)).sum := by simp [State.fed_eq]

@[simp] theorem State.fed_received (w : Window) (s : State) (chunk : Bytes) :
    (s.fed w chunk).received = s.received ++ chunk := by simp [State.fed_eq]

@[simp] theorem State.fed_transmitted (w : Window) (s : State) (chunk : Bytes) :
    (s.fed w chunk).transmitted = s.transmitted := by simp [State.fed_eq]

@[simp] theorem State.fed_events (w : Window) (s : State) (chunk : Bytes) :
    (s.fed w chunk).events = s.events ++ (reassemble w s.ctrl.esc s.buf chunk).1 := by simp [State.fed_eq]

@[simp] theorem State.fed_encoded (w : Window) (s : State) (chunk : Bytes) :
    (s.fed w chunk).encoded = s.encoded := by simp [State.fed_eq]

@[simp] theorem State.fed_result (w : Window) (s : State) (chunk : Bytes) :
    (s.fed w chunk).result = .events (reassemble w s.ctrl.esc s.buf chunk).1 := by simp [State.fed_eq]

@[simp] theorem State.fed_host (w : Window) (s : State) (chunk : Bytes) :
    (s.fed w chunk).host = s.host := by simp [State.fed_eq]

/-! ### A write of a register -/

@[simp] theorem State.writeCsr_buf (s : State) (v : Byte) (r : Csr) : (s.writeCsr v r).buf = s.buf := by
  cases r <;> rfl

@[simp] theorem State.writeCsr_nFrame (s : State) (v : Byte) (r : Csr) : (s.writeCsr v r).nFrame = s.nFrame := by
  cases r <;> rfl

@[simp] theorem State.writeCsr_nUnknown (s : State) (v : Byte) (r : Csr) : (s.writeCsr v r).nUnknown = s.nUnknown := by
  cases r <;> rfl

@[simp] theorem State.writeCsr_nShort (s : State) (v : Byte) (r : Csr) : (s.writeCsr v r).nShort = s.nShort := by
  cases r <;> rfl

@[simp] theorem State.writeCsr_nLen (s : State) (v : Byte) (r : Csr) : (s.writeCsr v r).nLen = s.nLen := by
  cases r <;> rfl

@[simp] theorem State.writeCsr_nCk (s : State) (v : Byte) (r : Csr) : (s.writeCsr v r).nCk = s.nCk := by
  cases r <;> rfl

@[simp] theorem State.writeCsr_nNoise (s : State) (v : Byte) (r : Csr) : (s.writeCsr v r).nNoise = s.nNoise := by
  cases r <;> rfl

@[simp] theorem State.writeCsr_received (s : State) (v : Byte) (r : Csr) : (s.writeCsr v r).received = s.received := by
  cases r <;> rfl

@[simp] theorem State.writeCsr_transmitted (s : State) (v : Byte) (r : Csr) : (s.writeCsr v r).transmitted = s.transmitted := by
  cases r <;> rfl

@[simp] theorem State.writeCsr_events (s : State) (v : Byte) (r : Csr) : (s.writeCsr v r).events = s.events := by
  cases r <;> rfl

@[simp] theorem State.writeCsr_encoded (s : State) (v : Byte) (r : Csr) : (s.writeCsr v r).encoded = s.encoded := by
  cases r <;> rfl

@[simp] theorem State.writeCsr_result (s : State) (v : Byte) (r : Csr) : (s.writeCsr v r).result = s.result := by
  cases r <;> rfl

@[simp] theorem State.writeCsr_host (s : State) (v : Byte) (r : Csr) : (s.writeCsr v r).host = s.host := by
  cases r <;> rfl

/-- A write reaches CTRL only where it names CTRL. -/
theorem State.writeCsr_ctrl (s : State) (v : Byte) (r : Csr) :
    (s.writeCsr v r).ctrl = if r = .ctrl then Ctrl.ofByte v else s.ctrl := by
  cases r <;> simp [State.writeCsr]

end Sys2Proof.Machine
end

