-- ==== Sys2Proof/Laws/Codec.lean ====
section
/-! SUPPORT. What the pure functions of the codec do, said once: sums, escaping, the shape of a logical frame, VALIDATE and
DEFRAME on it. -/

namespace Sys2Proof.Machine

/-! ### Sums and lengths -/

@[simp] theorem byteSum_append (a b : Bytes) : byteSum (a ++ b) = byteSum a + byteSum b := by
  induction a with
  | nil => simp [byteSum]
  | cons x xs ih => simp [byteSum, ih, Nat.add_assoc]

theorem byteSum_eq_sum (s : Bytes) : byteSum s = (s.map BitVec.toNat).sum := by
  induction s with
  | nil => rfl
  | cons x xs ih => simp [byteSum, ih]

theorem sum8_toNat (s : Bytes) : (sum8 s).toNat = byteSum s % 256 := by simp [sum8]

theorem checksum_toNat (fd : Bytes) : (checksum fd).toNat = 255 - byteSum fd % 256 := by
  have h : (sum8 fd).toNat = byteSum fd % 256 := sum8_toNat fd
  have : (sum8 fd) ≤ 0xFF#8 := by simp [BitVec.le_def]; omega
  rw [checksum, BitVec.toNat_sub_of_le this, h]
  rfl

/-- The checksum is the one byte that brings the sum to 0xFF modulo 256. -/
theorem checksum_eq_iff (fd : Bytes) (c : Byte) : checksum fd = c ↔ (byteSum fd + c.toNat) % 256 = 255 := by
  rw [← BitVec.toNat_inj, checksum_toNat]
  have := c.isLt
  omega

theorem be16_hi_lo {n : Nat} (h : n ≤ lenMax) : be16 (hiByte n) (loByte n) = n := by
  simp only [be16, hiByte, loByte, BitVec.toNat_ofNat, lenMax] at *
  omega

theorem be16_le (h l : Byte) : be16 h l ≤ lenMax := by
  have := h.isLt; have := l.isLt
  simp only [be16, lenMax]
  omega

theorem be16_inj {h l h' l' : Byte} (e : be16 h l = be16 h' l') : h = h' ∧ l = l' := by
  have := h.isLt; have := l.isLt; have := h'.isLt; have := l'.isLt
  simp only [be16] at e
  exact ⟨BitVec.eq_of_toNat_eq (by omega), BitVec.eq_of_toNat_eq (by omega)⟩

/-! ### Escaping -/

theorem xor_mask_cancel (b : Byte) : (b ^^^ xorMask) ^^^ xorMask = b := by
  rw [BitVec.xor_assoc, BitVec.xor_self, BitVec.xor_zero]

/-- `Esc1` makes a pair of the four bytes of ESCSET and leaves the others. -/
theorem esc1_cases (b : Byte) :
    (b ∈ escSet ∧ esc1 b = [escByte, b ^^^ xorMask]) ∨ (b ∉ escSet ∧ esc1 b = [b]) := by
  by_cases h : b ∈ escSet <;> simp [esc1, h]

theorem mem_escSet (b : Byte) : b ∈ escSet ↔ b = 0x7E#8 ∨ b = 0x7D#8 ∨ b = 0x11#8 ∨ b = 0x13#8 := by
  simp [escSet]

@[simp] theorem escTail_append (a b : Bytes) : escTail (a ++ b) = escTail a ++ escTail b := by
  induction a with
  | nil => rfl
  | cons x xs ih => simp [escTail, ih]

/-- Escaped bytes hold none of 0x7E, 0x11 and 0x13 (40_codec.md R96 (b)). -/
theorem not_mem_escTail {m : Byte} (hm : m = 0x7E#8 ∨ m = 0x11#8 ∨ m = 0x13#8) (s : Bytes) : m ∉ escTail s := by
  induction s with
  | nil => simp [escTail]
  | cons b bs ih =>
    rw [escTail, List.mem_append, not_or]
    refine ⟨?_, ih⟩
    rcases esc1_cases b with ⟨hb, h⟩ | ⟨hb, h⟩ <;> rw [h]
    · rw [mem_escSet] at hb
      rcases hm with rfl | rfl | rfl <;> rcases hb with rfl | rfl | rfl | rfl <;> decide
    · rw [mem_escSet] at hb
      rintro hmem
      rw [List.mem_singleton] at hmem
      subst hmem
      tauto

/-- The scan state of `Unesc` after reading `s` from state `st`. -/
def scanState : Bool → Bytes → Bool
  | st, [] => st
  | true, _ :: bs => scanState false bs
  | false, b :: bs => if b = escByte then scanState true bs else scanState false bs

/-- `Unesc` is a scan: it reads `a`, then `b` from the state `a` left. -/
theorem unescScan_append (st : Bool) (a b : Bytes) :
    unescScan st (a ++ b) = unescScan st a ++ unescScan (scanState st a) b := by
  induction a generalizing st with
  | nil => cases st <;> simp [unescScan, scanState]
  | cons x xs ih =>
    cases st with
    | true => simp [unescScan, scanState, ih]
    | false => by_cases h : x = escByte <;> simp [unescScan, scanState, ih, h]

/-- The scan state composes as the scan does. -/
theorem scanState_append (st : Bool) (a b : Bytes) : scanState st (a ++ b) = scanState (scanState st a) b := by
  induction a generalizing st with
  | nil => rfl
  | cons x xs ih =>
    cases st with
    | true => simp [scanState, ih]
    | false => by_cases h : x = escByte <;> simp [scanState, ih, h]

/-- A scan that gives nothing read nothing, or stopped inside a pair. -/
theorem unescScan_eq_nil {st : Bool} {s : Bytes} (h : unescScan st s = []) : s = [] ∨ scanState st s = true := by
  cases s with
  | nil => exact .inl rfl
  | cons b bs =>
    cases st with
    | true => simp [unescScan] at h
    | false =>
      by_cases hb : b = escByte
      · cases bs with
        | nil => exact .inr (by simp [scanState, hb])
        | cons c cs => simp [unescScan, hb] at h
      · simp [unescScan, hb] at h

@[simp] theorem unescScan_nil (st : Bool) : unescScan st [] = [] := by cases st <;> rfl

theorem esc1_scan (b : Byte) : unescScan false (esc1 b) = [b] ∧ scanState false (esc1 b) = false := by
  rcases esc1_cases b with ⟨hb, h⟩ | ⟨hb, h⟩ <;> rw [h]
  · simp [unescScan, scanState]
  · have : b ≠ escByte := by
      rintro rfl
      exact hb (by decide)
    simp [unescScan, scanState, this]

/-- `Unesc` undoes `Esc1` byte by byte and ends in the plain state. -/
theorem unescScan_escTail (s : Bytes) :
    unescScan false (escTail s) = s ∧ scanState false (escTail s) = false := by
  induction s with
  | nil => simp [escTail, scanState]
  | cons b bs ih =>
    obtain ⟨h1, h2⟩ := esc1_scan b
    rw [escTail, unescScan_append, scanState_append, h1, h2]
    exact ⟨by rw [ih.1]; rfl, ih.2⟩

/-- UNESCAPE undoes ESCAPE, whatever follows. -/
theorem unescape_escape_append (b0 : Byte) (x r : Bytes) :
    unescape (escape (b0 :: x) ++ r) = b0 :: (x ++ unescScan false r) := by
  simp [escape, unescape, unescScan_append, unescScan_escTail]

theorem unescape_escape (x : Bytes) : unescape (escape x) = x := by
  cases x with
  | nil => rfl
  | cons b0 x => simpa using unescape_escape_append b0 x []

theorem unescScan_length_le (st : Bool) (s : Bytes) : (unescScan st s).length ≤ s.length := by
  induction s generalizing st with
  | nil => simp
  | cons b bs ih =>
    cases st with
    | true => simpa [unescScan] using ih false
    | false =>
      by_cases h : b = escByte
      · simpa [unescScan, h] using Nat.le_succ_of_le (ih true)
      · simpa [unescScan, h] using ih false

theorem unescape_length_le (b : Bytes) : (unescape b).length ≤ b.length := by
  cases b with
  | nil => simp [unescape]
  | cons b0 rest => simpa [unescape] using unescScan_length_le false rest

theorem unescScan_of_not_mem {s : Bytes} (h : escByte ∉ s) : unescScan false s = s := by
  induction s with
  | nil => rfl
  | cons b bs ih =>
    simp only [List.mem_cons, not_or] at h
    simp [unescScan, Ne.symm h.1, ih h.2]

/-! ### The shape of a logical frame -/

/-- Four bytes or more are a first byte, two length bytes, the frame data and a last byte. -/
theorem exists_frame_shape {raw : Bytes} (h : 4 ≤ raw.length) :
    ∃ x hi lo fd c, raw = x :: hi :: lo :: (fd ++ [c]) := by
  match raw, h with
  | x :: hi :: lo :: y :: ys, _ =>
    exact ⟨x, hi, lo, (y :: ys).dropLast, (y :: ys).getLast (by simp), by
      rw [List.dropLast_append_getLast]⟩

@[simp] theorem frameDataOf_shape (x hi lo c : Byte) (fd : Bytes) :
    frameDataOf (x :: hi :: lo :: (fd ++ [c])) = fd := by
  simp [frameDataOf, slice]

@[simp] theorem byteAt_last_shape (x hi lo c : Byte) (fd : Bytes) :
    byteAt (x :: hi :: lo :: (fd ++ [c])) ((x :: hi :: lo :: (fd ++ [c])).length - 1) = c := by
  simp [byteAt]

theorem validate_short {raw : Bytes} (h : raw.length < 4) : validate raw = (false, .tooShort) := by
  simp [validate, minRaw, h]

/-- VALIDATE on four bytes or more (40_codec.md R102). -/
theorem validate_shape (x hi lo c : Byte) (fd : Bytes) :
    validate (x :: hi :: lo :: (fd ++ [c])) =
      if be16 hi lo ≠ fd.length then (false, .lengthMismatch)
      else if checksum fd ≠ c then (false, .checksumMismatch) else (true, .none) := by
  have hlen : ¬ (x :: hi :: lo :: (fd ++ [c])).length < minRaw := by simp [minRaw]
  have h4 : (x :: hi :: lo :: (fd ++ [c])).length - 4 = fd.length := by simp
  unfold validate
  rw [if_neg hlen, h4, frameDataOf_shape, byteAt_last_shape]
  rfl

/-- When VALIDATE accepts. -/
theorem validate_true_iff (raw : Bytes) :
    (validate raw).1 = true ↔
      ∃ x hi lo fd c, raw = x :: hi :: lo :: (fd ++ [c]) ∧ be16 hi lo = fd.length ∧ checksum fd = c := by
  by_cases h : raw.length < 4
  · constructor
    · simp [validate_short h]
    · rintro ⟨x, hi, lo, fd, c, rfl, -, -⟩
      simp at h
      omega
  · obtain ⟨x, hi, lo, fd, c, rfl⟩ := exists_frame_shape (by omega : 4 ≤ raw.length)
    rw [validate_shape]
    constructor
    · intro hv
      split_ifs at hv with h1 h2
      exact ⟨x, hi, lo, fd, c, rfl, by simpa using h1, by simpa using h2⟩
    · rintro ⟨x', hi', lo', fd', c', e, h1, h2⟩
      simp only [List.cons.injEq] at e
      obtain ⟨-, rfl, rfl, e⟩ := e
      obtain ⟨rfl, e'⟩ := List.append_inj' e rfl
      obtain rfl : c = c' := by simpa using e'
      simp [h1, h2]

/-- A true verdict has reason `none`, a false one has another. -/
theorem validate_reason (raw : Bytes) : (validate raw).2 = .none ↔ (validate raw).1 = true := by
  unfold validate
  split_ifs <;> simp

/-- The bytes ENCODE frames. -/
theorem validate_rawFrame {fd : Bytes} (h : fd.length ≤ lenMax) : validate (rawFrame fd) = (true, .none) := by
  rw [rawFrame, validate_shape, be16_hi_lo h]
  simp

theorem rawFrame_length (fd : Bytes) : (rawFrame fd).length = fd.length + 4 := by simp [rawFrame]

/-- A proper part of a valid frame, from its start, is neither valid nor a checksum failure (40_codec.md R104 (c)). -/
theorem validate_of_append {p q : Bytes} (hv : (validate (p ++ q)).1 = true) (hq : q ≠ []) :
    validate p = (false, .tooShort) ∨ validate p = (false, .lengthMismatch) := by
  by_cases h : p.length < 4
  · exact .inl (validate_short h)
  · obtain ⟨x, hi, lo, fd, c, rfl⟩ := exists_frame_shape (by omega : 4 ≤ p.length)
    obtain ⟨x', hi', lo', fd', c', e, h1, -⟩ := (validate_true_iff _).1 hv
    simp only [List.cons_append, List.cons.injEq] at e
    obtain ⟨-, rfl, rfl, e⟩ := e
    right
    have hl := congrArg List.length e
    have : 0 < q.length := List.length_pos_iff.2 hq
    simp at hl
    rw [validate_shape, if_pos (by omega)]

/-! ### DEFRAME -/

/-- What DEFRAME judges: the raw bytes, unescaped in escaping mode. -/
def unwire (esc : Bool) (raw : Bytes) : Bytes := if esc then unescape raw else raw

theorem deframe_eq (esc : Bool) (raw : Bytes) :
    deframe esc raw =
      if (validate (unwire esc raw)).1 then .valid (frameDataOf (unwire esc raw))
      else .invalid (validate (unwire esc raw)).2 := by
  unfold deframe unwire
  dsimp only
  generalize validate (if esc = true then unescape raw else raw) = v
  obtain ⟨ok, r⟩ := v
  cases ok <;> rfl

theorem unwire_length_le (esc : Bool) (raw : Bytes) : (unwire esc raw).length ≤ raw.length := by
  cases esc with
  | false => exact Nat.le_refl _
  | true => exact unescape_length_le raw

/-- An invalid candidate has a reason that is not `none`. -/
theorem deframe_invalid_reason {esc : Bool} {raw : Bytes} {r : Reason} (h : deframe esc raw = .invalid r) :
    r ≠ .none := by
  rw [deframe_eq] at h
  split_ifs at h with hv
  rintro rfl
  exact hv ((validate_reason _).1 (by simpa using h))

theorem deframe_short {esc : Bool} {raw : Bytes} (h : raw.length < 4) : deframe esc raw = .invalid .tooShort := by
  have hl := unwire_length_le esc raw
  rw [deframe_eq, validate_short (by omega)]
  rfl

theorem unwire_onWire (esc : Bool) (raw : Bytes) : unwire esc (onWire esc raw) = raw := by
  cases esc <;> simp [unwire, onWire, unescape_escape]

/-- DEFRAME undoes framing in the same mode (42_dispatch.md R121 (a)). -/
theorem deframe_onWire {esc : Bool} {fd : Bytes} (h : fd.length ≤ lenMax) :
    deframe esc (onWire esc (rawFrame fd)) = .valid fd := by
  rw [deframe_eq, unwire_onWire, validate_rawFrame h]
  simp [rawFrame]

/-! ### ENCODE -/

theorem encodeFrame_ok {esc : Bool} {fd w : Bytes} :
    encodeFrame esc fd = .ok w ↔ 1 ≤ fd.length ∧ fd.length ≤ lenMax ∧ w = onWire esc (rawFrame fd) := by
  unfold encodeFrame
  split_ifs with h1 h2
  · constructor
    · simp
    · omega
  · constructor
    · simp
    · omega
  · constructor
    · intro h
      injection h with h
      exact ⟨by omega, by omega, h.symm⟩
    · rintro ⟨-, -, rfl⟩
      rfl

/-- A proper part of a frame on the wire, from its start, is invalid, and never for its checksum. -/
theorem deframe_head {esc : Bool} {fd head rest : Bytes} (hfd : fd.length ≤ lenMax)
    (hw : onWire esc (rawFrame fd) = head ++ rest) (hr : rest ≠ []) :
    deframe esc head = .invalid .tooShort ∨ deframe esc head = .invalid .lengthMismatch := by
  have key : ∃ q, q ≠ [] ∧ rawFrame fd = unwire esc head ++ q := by
    cases esc with
    | false => exact ⟨rest, hr, hw⟩
    | true =>
      cases head with
      | nil =>
        exact ⟨rawFrame fd, by simp [rawFrame], rfl⟩
      | cons b0 h' =>
        simp only [onWire, if_true, rawFrame, escape, List.cons_append, List.cons.injEq] at hw
        obtain ⟨rfl, hw⟩ := hw
        obtain ⟨hs1, hs2⟩ := unescScan_escTail (hiByte fd.length :: loByte fd.length :: (fd ++ [checksum fd]))
        rw [hw, unescScan_append] at hs1
        rw [hw, scanState_append] at hs2
        refine ⟨unescScan (scanState false h') rest, fun e => ?_, by
          simp only [unwire, if_true, unescape, rawFrame, List.cons_append, hs1]⟩
        rcases unescScan_eq_nil e with h | h
        · exact hr h
        · rw [h] at hs2
          cases hs2
  obtain ⟨q, hq, e⟩ := key
  have hv : (validate (unwire esc head ++ q)).1 = true := by rw [← e, validate_rawFrame hfd]
  rw [deframe_eq]
  rcases validate_of_append hv hq with h | h <;> rw [h]
  · exact .inl rfl
  · exact .inr rfl

/-- A wire frame begins with the marker. -/
theorem onWire_rawFrame_cons (esc : Bool) (fd : Bytes) :
    ∃ t, onWire esc (rawFrame fd) = startMarker :: t ∧ 3 ≤ t.length := by
  cases esc with
  | false => exact ⟨_, rfl, by simp⟩
  | true =>
    refine ⟨_, rfl, ?_⟩
    have h1 : ∀ s, s.length ≤ (escTail s).length := by
      intro s
      induction s with
      | nil => simp [escTail]
      | cons b bs ih =>
        rcases esc1_cases b with ⟨-, h⟩ | ⟨-, h⟩ <;> simp [escTail, h] <;> omega
    refine Nat.le_trans ?_ (h1 _)
    simp

end Sys2Proof.Machine
end

