-- ==== Sys2Proof/Laws/Decode.lean ====
section
/-! SUPPORT. What the decoder's parts answer, said once. -/

namespace Sys2Proof

/-- The row of a frame type is encoded as that type and its payload. -/
theorem encode_frameTypeRow (dir : Direction) (t : Byte) (p : Bytes) :
    encode (frameTypeRow dir t p) = .frameData dir (t :: p) := by
  unfold frameTypeRow
  repeat' split
  all_goals first
    | (next h => subst h; rfl)
    | rfl

/-- The row of a frame type is well-formed when its payload fits. -/
theorem wf_frameTypeRow (dir : Direction) (t : Byte) (p : Bytes) (h : payloadFits p = true) :
    WellFormed (frameTypeRow dir t p) := by
  unfold frameTypeRow
  repeat' split
  all_goals first
    | exact h
    | simp_all [WellFormed, Instr.wf, namedTypes]

/-- A register id is read from its own operand byte only. -/
theorem decodeId_ok {b : Byte} {id : BitVec 4} (h : decodeId b = .ok id) : BitVec.ofNat 8 id.toNat = b := by
  unfold decodeId at h
  split at h
  · injection h with h
    subst h
    apply BitVec.eq_of_toNat_eq
    simp
    omega
  · cases h

end Sys2Proof
end

