-- ==== Sys2Proof/Laws/Reassembler.lean ====
section
/-! SUPPORT. What the split and one pass of the reassembler do, said once. -/

namespace Sys2Proof.Machine

/-! ### Split7E (00_scope.md R12) -/

/-- The segments put back together with their markers. -/
def joinSegments (segs : List Bytes) : Bytes := segs.flatMap (startMarker :: ·)

@[simp] theorem joinSegments_nil : joinSegments [] = [] := rfl

@[simp] theorem joinSegments_cons (g : Bytes) (gs : List Bytes) :
    joinSegments (g :: gs) = startMarker :: (g ++ joinSegments gs) := rfl

@[simp] theorem joinSegments_append (a b : List Bytes) :
    joinSegments (a ++ b) = joinSegments a ++ joinSegments b := by
  simp [joinSegments]

theorem split7E_join (w : Bytes) : w = (split7E w).1 ++ joinSegments (split7E w).2 := by
  induction w with
  | nil => rfl
  | cons b bs ih =>
    rw [split7E]
    split
    · next h => simpa [h] using ih
    · simpa using ih

theorem split7E_no_marker (w : Bytes) : startMarker ∉ (split7E w).1 ∧ ∀ g ∈ (split7E w).2, startMarker ∉ g := by
  induction w with
  | nil => simp [split7E]
  | cons b bs ih =>
    rw [split7E]
    split
    · simpa using ih
    · next h => simpa [Ne.symm h] using ih

theorem split7E_of_not_mem {s : Bytes} (h : startMarker ∉ s) (segs : List Bytes)
    (hs : ∀ g ∈ segs, startMarker ∉ g) : split7E (s ++ joinSegments segs) = (s, segs) := by
  induction s with
  | nil =>
    induction segs with
    | nil => rfl
    | cons g gs ih =>
      have hg : split7E (g ++ joinSegments gs) = (g, gs) := by
        have ih' := ih (fun x hx => hs x (List.mem_cons_of_mem _ hx))
        have hgm := hs g (by simp)
        clear hs ih
        induction g with
        | nil => exact ih'
        | cons b bs ihb =>
          simp only [List.mem_cons, not_or] at hgm
          rw [List.cons_append, split7E, if_neg (Ne.symm hgm.1), ihb hgm.2]
      simp [split7E, hg]
  | cons b bs ih =>
    simp only [List.mem_cons, not_or] at h
    rw [List.cons_append, split7E, if_neg (Ne.symm h.1), ih h.2]

/-- Split7E is determined by its defining equation. -/
theorem split7E_eq {w s : Bytes} {segs : List Bytes} (hw : w = s ++ joinSegments segs) (h : startMarker ∉ s)
    (hs : ∀ g ∈ segs, startMarker ∉ g) : split7E w = (s, segs) := by
  rw [hw, split7E_of_not_mem h segs hs]

/-! ### Candidates -/

/-- A segment with its marker back is a candidate. -/
theorem isCandidate_cons {g : Bytes} (h : startMarker ∉ g) : IsCandidate (startMarker :: g) := ⟨rfl, h⟩

theorem isCandidate_iff (raw : Bytes) : IsCandidate raw ↔ ∃ g, raw = startMarker :: g ∧ startMarker ∉ g := by
  cases raw with
  | nil => simp [IsCandidate]
  | cons b g =>
    constructor
    · rintro ⟨h1, h2⟩
      exact ⟨g, by simpa using h1, h2⟩
    · rintro ⟨g', e, h⟩
      injection e with e1 e2
      subst e1 e2
      exact ⟨rfl, h⟩

/-- The event of a delivered frame explains any wire form DEFRAME takes it from. -/
theorem explains_deliver {esc : Bool} {raw fd : Bytes} (hc : IsCandidate raw) (h : deframe esc raw = .valid fd) :
    Explains esc raw (deliverEvent fd) := by
  unfold deliverEvent
  split
  · next k hk => exact ⟨hc, h, hk⟩
  · next t ht => exact ⟨hc, h, ht⟩

theorem explains_candidate {esc : Bool} {raw : Bytes} (hc : IsCandidate raw) :
    Explains esc raw (candidateEvent esc raw) := by
  unfold candidateEvent
  split
  · next fd h => exact explains_deliver hc h
  · next r h => exact ⟨rfl, deframe_invalid_reason h, hc, h⟩

/-- The three things that can happen to the tail (43_reassembler.md R146, R147, R148). -/
theorem tailOutcome_cases (w : Window) (esc : Bool) (raw : Bytes) :
    (tailOutcome w esc raw = ([candidateEvent esc raw], [])) ∨
    (tailOutcome w esc raw = ([], raw) ∧ w.keeps raw.length ∧ ∃ r, deframe esc raw = .invalid r) := by
  unfold tailOutcome candidateEvent
  cases deframe esc raw with
  | valid fd => exact .inl rfl
  | invalid r =>
    by_cases h : w.keeps raw.length
    · exact .inr ⟨by simp [h], h, r, rfl⟩
    · exact .inl (by simp [h])

/-! ### The pass over the segments -/

@[simp] theorem segmentsPass_nil (w : Window) (esc : Bool) : segmentsPass w esc [] = ([], []) := rfl

@[simp] theorem segmentsPass_one (w : Window) (esc : Bool) (g : Bytes) :
    segmentsPass w esc [g] = tailOutcome w esc (startMarker :: g) := rfl

theorem segmentsPass_cons_cons (w : Window) (esc : Bool) (g h : Bytes) (gs : List Bytes) :
    segmentsPass w esc (g :: h :: gs) =
      (candidateEvent esc (startMarker :: g) :: (segmentsPass w esc (h :: gs)).1,
        (segmentsPass w esc (h :: gs)).2) := rfl

/-- Terminated segments give one event each, whatever follows. -/
theorem segmentsPass_append (w : Window) (esc : Bool) (terminated : List Bytes) {rest : List Bytes} (h : rest ≠ []) :
    segmentsPass w esc (terminated ++ rest) =
      (terminated.map (fun g => candidateEvent esc (startMarker :: g)) ++ (segmentsPass w esc rest).1,
        (segmentsPass w esc rest).2) := by
  induction terminated with
  | nil => simp
  | cons g gs ih =>
    obtain ⟨r, rs, hr⟩ : ∃ r rs, gs ++ rest = r :: rs := by
      cases gs with
      | nil => exact List.exists_cons_of_ne_nil h
      | cons a as => exact ⟨a, as ++ rest, rfl⟩
    rw [List.cons_append, hr, segmentsPass_cons_cons, ← hr, ih]
    simp

/-- The pass accounts for every byte of its segments and leaves a candidate in the window, or nothing. -/
theorem segmentsPass_spec (w : Window) (esc : Bool) (segs : List Bytes) (hs : ∀ g ∈ segs, startMarker ∉ g) :
    BufInv w (segmentsPass w esc segs).2 ∧
    ∃ pieces : List Bytes, joinSegments segs = pieces.flatten ++ (segmentsPass w esc segs).2 ∧
      List.Forall₂ (Explains esc) pieces (segmentsPass w esc segs).1 := by
  induction segs with
  | nil => exact ⟨.inl rfl, [], rfl, .nil⟩
  | cons g gs ih =>
    have hg : startMarker ∉ g := hs g (by simp)
    cases gs with
    | nil =>
      rw [segmentsPass_one]
      rcases tailOutcome_cases w esc (startMarker :: g) with h | ⟨h, hk, -⟩ <;> rw [h]
      · exact ⟨.inl rfl, [startMarker :: g], by simp, .cons (explains_candidate (isCandidate_cons hg)) .nil⟩
      · exact ⟨.inr ⟨rfl, hk.1, hk.2, hg⟩, [], by simp, .nil⟩
    | cons h rest =>
      obtain ⟨hb, pieces, hp, hf⟩ := ih (fun x hx => hs x (List.mem_cons_of_mem _ hx))
      rw [segmentsPass_cons_cons]
      refine ⟨hb, (startMarker :: g) :: pieces, ?_, .cons (explains_candidate (isCandidate_cons hg)) hf⟩
      rw [joinSegments_cons, hp]
      simp

/-! ### FEED's pass -/

/-- One pass, from any way of cutting the work buffer at its markers (43_reassembler.md R140). -/
theorem reassemble_eq (w : Window) (esc : Bool) {buf chunk s : Bytes} {segs : List Bytes}
    (hw : buf ++ chunk = s ++ joinSegments segs) (h : startMarker ∉ s) (hs : ∀ g ∈ segs, startMarker ∉ g) :
    reassemble w esc buf chunk = (noiseEvents s ++ (segmentsPass w esc segs).1, (segmentsPass w esc segs).2) := by
  unfold reassemble
  simp only [split7E_eq hw h hs]

/-- One pass accounts for every byte of the work buffer, in stream order, and leaves a buffer that satisfies the buffer
invariant (10_state.md R23, 43_reassembler.md R161). -/
theorem reassemble_spec (w : Window) (esc : Bool) (buf chunk : Bytes) :
    BufInv w (reassemble w esc buf chunk).2 ∧
    ∃ pieces : List Bytes, buf ++ chunk = pieces.flatten ++ (reassemble w esc buf chunk).2 ∧
      List.Forall₂ (Explains esc) pieces (reassemble w esc buf chunk).1 := by
  have hj := split7E_join (buf ++ chunk)
  obtain ⟨h1, h2⟩ := split7E_no_marker (buf ++ chunk)
  obtain ⟨hb, pieces, hp, hf⟩ := segmentsPass_spec w esc _ h2
  rw [reassemble_eq w esc hj h1 h2]
  refine ⟨hb, ?_⟩
  by_cases hn : (split7E (buf ++ chunk)).1 = []
  · exact ⟨pieces, by rw [hn, List.nil_append, hp] at hj; exact hj, by simpa [noiseEvents, hn] using hf⟩
  · refine ⟨(split7E (buf ++ chunk)).1 :: pieces, by simpa [hp] using hj, ?_⟩
    simp only [noiseEvents, if_neg hn, List.cons_append, List.nil_append]
    exact .cons ⟨rfl, hn, h1⟩ hf

/-- A buffer the invariant allows is the noise-free start of its own candidate. -/
theorem bufInv_cases {w : Window} {buf : Bytes} (h : BufInv w buf) :
    buf = [] ∨ ∃ g, buf = startMarker :: g ∧ startMarker ∉ g ∧ w.keeps buf.length := by
  rcases h with h | ⟨h1, h2, h3, h4⟩
  · exact .inl h
  · obtain ⟨g, rfl, hg⟩ := (isCandidate_iff buf).1 ⟨h1, h4⟩
    exact .inr ⟨g, rfl, hg, h2, h3⟩

/-- A run that begins with the only marker it holds, fed to a buffer the invariant allows: what was kept becomes a
terminated segment, the run is the tail. -/
theorem reassemble_marker (w : Window) (esc : Bool) {buf g : Bytes} (hb : BufInv w buf) (hg : startMarker ∉ g) :
    reassemble w esc buf (startMarker :: g) =
      ((if buf = [] then [] else [candidateEvent esc buf]) ++ (tailOutcome w esc (startMarker :: g)).1,
        (tailOutcome w esc (startMarker :: g)).2) := by
  rcases bufInv_cases hb with rfl | ⟨k, rfl, hk, -⟩
  · rw [reassemble_eq w esc (s := []) (segs := [g]) (by simp) (by simp) (by simpa using hg)]
    simp [noiseEvents]
  · rw [reassemble_eq w esc (s := []) (segs := [k, g]) (by simp) (by simp) (by simp [hk, hg])]
    simp [noiseEvents, segmentsPass_cons_cons]

/-- Bytes that hold no marker, fed after a kept tail: they extend the candidate. -/
theorem reassemble_extend (w : Window) (esc : Bool) {k g : Bytes} (hk : startMarker ∉ k) (hg : startMarker ∉ g) :
    reassemble w esc (startMarker :: k) g = tailOutcome w esc (startMarker :: (k ++ g)) := by
  rw [reassemble_eq w esc (s := []) (segs := [k ++ g]) (by simp) (by simp) (by simp [hk, hg])]
  simp [noiseEvents]

/-- Bytes that hold no marker, fed to an empty buffer: noise. -/
theorem reassemble_noise (w : Window) (esc : Bool) {g : Bytes} (hg : startMarker ∉ g) :
    reassemble w esc [] g = (noiseEvents g, []) := by
  rw [reassemble_eq w esc (s := g) (segs := []) (by simp) hg (by simp)]
  simp

/-- A wire frame as the tail is delivered. -/
theorem tailOutcome_wireFrame (w : Window) {esc : Bool} {fd f : Bytes} (h : WireFrame esc fd f) :
    tailOutcome w esc f = ([deliverEvent fd], []) := by
  obtain ⟨-, h2, rfl⟩ := encodeFrame_ok.1 h.1
  simp [tailOutcome, deframe_onWire h2]

/-- A wire frame is the marker and bytes that are not markers. -/
theorem wireFrame_cons {esc : Bool} {fd f : Bytes} (h : WireFrame esc fd f) :
    ∃ g, f = startMarker :: g ∧ startMarker ∉ g ∧ 4 ≤ g.length := by
  obtain ⟨he, hm⟩ := h
  obtain ⟨h1, -, rfl⟩ := encodeFrame_ok.1 he
  obtain ⟨g, hg, -⟩ := onWire_rawFrame_cons esc fd
  refine ⟨g, hg, by simpa [hg] using hm, ?_⟩
  have hl := unwire_length_le esc (onWire esc (rawFrame fd))
  rw [unwire_onWire, rawFrame_length, hg] at hl
  simp at hl
  omega

/-- A proper part of a wire frame, from its start, is invalid, and never for its checksum. -/
theorem deframe_wireFrame_head {esc : Bool} {fd head rest : Bytes} (h : WireFrame esc fd (head ++ rest))
    (hr : rest ≠ []) : deframe esc head = .invalid .tooShort ∨ deframe esc head = .invalid .lengthMismatch := by
  obtain ⟨-, h2, e⟩ := encodeFrame_ok.1 h.1
  exact deframe_head h2 e.symm hr

/-! ### FEED on this machine -/

/-- CHUNK_MAX is not set on this machine: FEED always has a next state. -/
@[simp] theorem feedChunk_eq (chunk : Bytes) (s : State) : feedChunk chunk s = .next (s.fed keepWindow chunk) := rfl

@[simp] theorem keepWindow_lo : keepWindow.lo = 1 := rfl

@[simp] theorem keepWindow_hi : keepWindow.hi = 3 := rfl

end Sys2Proof.Machine
end

