-- ==== Sys2Proof/Laws/Machine.lean ====
section
/-! SUPPORT. What one operation and one step can do, said once: the inversion lemmas the invariants are derived from. -/

namespace Sys2Proof.Machine

/-- What one instruction can do to the state. -/
inductive Effect (i : Instr) (s : State) : State → Prop where
  | reset : i = .reset → Effect i s s.restarted
  | csrWrite (id : BitVec 4) (v : Byte) :
      i = .csrWrite id v → Effect i s ((s.writeCsr v (Csr.ofId id)).returning .none)
  | fed (chunk : Bytes) : rowFeeds i = true → Effect i s (s.fed keepWindow chunk)
  | sent (fd : Bytes) : rowEncodes i = true → Effect i s (s.sent fd)
  | returned (r : Result) : rowFeeds i = false → rowEncodes i = false → Effect i s (s.returning r)

theorem carryFrame_inbound (fd : Bytes) (s : State) :
    carryFrame .inbound fd s = .next (s.fed keepWindow (onWire s.ctrl.esc (rawFrame fd))) := rfl

theorem carryFrame_outbound (fd : Bytes) (s : State) : carryFrame .outbound fd s = .next (s.sent fd) := rfl

/-- Every instruction answers a next state, and it is one of these. -/
theorem exec_effect (i : Instr) (s : State) : ∃ t, exec i s = .next t ∧ Effect i s t := by
  cases i
  case reset => exact ⟨_, rfl, .reset rfl⟩
  case csrWrite id v => exact ⟨_, rfl, .csrWrite id v rfl⟩
  case csrRead => exact ⟨_, rfl, .returned _ rfl rfl⟩
  case checksum => exact ⟨_, rfl, .returned _ rfl rfl⟩
  case escape => exact ⟨_, rfl, .returned _ rfl rfl⟩
  case validate => exact ⟨_, rfl, .returned _ rfl rfl⟩
  case deframe => exact ⟨_, rfl, .returned _ rfl rfl⟩
  case classify => exact ⟨_, rfl, .returned _ rfl rfl⟩
  case unescape => exact ⟨_, rfl, .returned _ rfl rfl⟩
  case encode => exact ⟨_, rfl, .sent _ rfl⟩
  case feed => exact ⟨_, rfl, .fed _ rfl⟩
  case frame => exact ⟨_, rfl, .fed _ rfl⟩
  case startMarker => exact ⟨_, rfl, .fed _ rfl⟩
  case esc7E => exact ⟨_, rfl, .fed _ rfl⟩
  case esc7D => exact ⟨_, rfl, .fed _ rfl⟩
  case esc11 => exact ⟨_, rfl, .fed _ rfl⟩
  case esc13 => exact ⟨_, rfl, .fed _ rfl⟩
  case escAny => exact ⟨_, rfl, .fed _ rfl⟩
  case unknownType dir t p =>
    cases dir <;> cases t
    · exact ⟨_, rfl, .fed _ rfl⟩
    · exact ⟨_, rfl, .fed _ rfl⟩
    · exact ⟨_, rfl, .sent _ rfl⟩
    · exact ⟨_, rfl, .sent _ rfl⟩
  all_goals
    rename_i dir p
    cases dir
    · exact ⟨_, rfl, .fed _ rfl⟩
    · exact ⟨_, rfl, .sent _ rfl⟩

theorem exec_next {i : Instr} {s t : State} (h : exec i s = .next t) : Effect i s t := by
  obtain ⟨t', h', e⟩ := exec_effect i s
  rw [h] at h'
  injection h' with h'
  exact h' ▸ e

/-- What the host's next turn asks for. -/
theorem fetch_cases (s : State) :
    (∃ rest, fetch s = .idle { s with host := rest }) ∨
    (∃ p rest, s.host = .present [p] :: rest ∧ fetch s = .run p { s with host := rest }) ∨
    (∃ bytes rest, s.host = .write bytes :: rest ∧ bytes ∈ s.encoded ∧
      fetch s = .idle (State.written { s with host := rest } bytes)) ∨
    (∃ why, fetch s = .noStep why) := by
  rcases hh : s.host with _ | ⟨turn, rest⟩
  · refine .inl ⟨s.host, ?_⟩
    simp only [fetch, hh]
    rw [← hh]
  · rcases turn with ps | bytes | _
    · match ps with
      | [] => exact .inl ⟨rest, by simp [fetch, hh]⟩
      | [p] => exact .inr (.inl ⟨p, rest, rfl, by simp [fetch, hh]⟩)
      | p :: q :: ps => exact .inr (.inr (.inr ⟨.overlappingOperations, by simp [fetch, hh]⟩))
    · by_cases hb : bytes ∈ s.encoded
      · exact .inr (.inr (.inl ⟨bytes, rest, rfl, hb, by simp [fetch, hh, hb]⟩))
      · exact .inr (.inr (.inr ⟨.unreturnedBytesWritten, by simp [fetch, hh, hb]⟩))
    · exact .inl ⟨rest, by simp [fetch, hh]⟩

/-- What one step can do: nothing but take the turn off the port, or that and the host's write, or that and one
instruction. -/
theorem step_next {s t : State} (h : step s = .next t) :
    (∃ rest, t = { s with host := rest }) ∨
    (∃ bytes rest, s.host = .write bytes :: rest ∧ bytes ∈ s.encoded ∧
      t = State.written { s with host := rest } bytes) ∨
    (∃ p rest i, s.host = .present [p] :: rest ∧ decode p = .ok i ∧ exec i { s with host := rest } = .next t) := by
  rcases fetch_cases s with ⟨rest, hf⟩ | ⟨p, rest, hh, hf⟩ | ⟨bytes, rest, hh, hb, hf⟩ | ⟨why, hf⟩ <;>
    simp only [step, hf] at h
  · injection h with h
    exact .inl ⟨rest, h.symm⟩
  · cases hd : decode p with
    | ok i => exact .inr (.inr ⟨p, rest, i, hh, hd, by simpa [hd] using h⟩)
    | error e => simp [hd] at h
  · injection h with h
    exact .inr (.inl ⟨bytes, rest, hh, hb, h.symm⟩)
  · injection h

end Sys2Proof.Machine
end

