-- ==== Sys2Proof/Laws/PerInstr.lean ====
section
/-! SUPPORT. Per instruction: decoding the encoding of a well-formed instruction gives it back. -/

namespace Sys2Proof.Laws.RoundTrip

/-- Decoding undoes encoding. -/
def Statement (i : Instr) : Prop := WellFormed i → decode (Sys2Proof.encode i) = .ok i

/-- A register id comes back from its operand byte. -/
theorem decodeId_ofNat (id : BitVec 4) : decodeId (BitVec.ofNat 8 id.toNat) = .ok id := by
  have h := id.isLt
  have e : (BitVec.ofNat 8 id.toNat).toNat = id.toNat := by
    rw [BitVec.toNat_ofNat]
    omega
  rw [decodeId, e, if_pos h, BitVec.ofNat_toNat, BitVec.setWidth_eq]

theorem reset : Statement (.reset) := fun _ => rfl

theorem csrRead (id : BitVec 4) : Statement (.csrRead id) := by
  intro _
  exact congrArg (Except.map _) (decodeId_ofNat id)

theorem csrWrite (id : BitVec 4) (v : Byte) : Statement (.csrWrite id v) := by
  intro _
  exact congrArg (Except.map _) (decodeId_ofNat id)

theorem checksum (fd : Bytes) : Statement (.checksum fd) := fun _ => rfl

theorem escape (b : Bytes) : Statement (.escape b) := fun _ => rfl

theorem validate (raw : Bytes) : Statement (.validate raw) := fun _ => rfl

theorem deframe (raw : Bytes) : Statement (.deframe raw) := fun _ => rfl

theorem classify (fd : Bytes) : Statement (.classify fd) := fun _ => rfl

theorem encode (fd : Bytes) : Statement (.encode fd) := fun _ => rfl

theorem feed (chunk : Bytes) : Statement (.feed chunk) := fun _ => rfl

theorem unescape (b : Bytes) : Statement (.unescape b) := fun _ => rfl

theorem frame (h l : Byte) (fd : Bytes) (c : Byte) : Statement (.frame h l fd c) := by
  intro _
  have hl : ¬ (0x7E#8 :: h :: l :: (fd ++ [c])).length < Machine.minRaw := by simp [Machine.minRaw]
  simp only [Sys2Proof.encode, decode, decodeFrame, List.head?_cons, ne_eq, Machine.startMarker, not_true_eq_false,
    if_false, if_neg hl, Machine.frameDataOf_shape, Machine.byteAt_last_shape]
  rfl

theorem startMarker : Statement (.startMarker) := fun _ => rfl

theorem esc7E : Statement (.esc7E) := fun _ => rfl

theorem esc7D : Statement (.esc7D) := fun _ => rfl

theorem esc11 : Statement (.esc11) := fun _ => rfl

theorem esc13 : Statement (.esc13) := fun _ => rfl

theorem escAny (b : Byte) : Statement (.escAny b) := by
  intro hw
  simp only [WellFormed, Instr.wf, pairBytes, Bool.not_eq_true', List.contains_eq_mem,
    decide_eq_false_iff_not, List.mem_cons, not_or, List.not_mem_nil] at hw
  simp [Sys2Proof.encode, decode, decodeSymbol, Machine.escByte, hw]

theorem localATResponse (dir : Direction) (payload : Bytes) : Statement (.localATResponse dir payload) := by
  intro hw
  simp only [WellFormed, Instr.wf] at hw
  simp [Sys2Proof.encode, decode, decodeFrameData, frameTypeRow, hw]

theorem transmitStatus (dir : Direction) (payload : Bytes) : Statement (.transmitStatus dir payload) := by
  intro hw
  simp only [WellFormed, Instr.wf] at hw
  simp [Sys2Proof.encode, decode, decodeFrameData, frameTypeRow, hw]

theorem routeInformation (dir : Direction) (payload : Bytes) : Statement (.routeInformation dir payload) := by
  intro hw
  simp only [WellFormed, Instr.wf] at hw
  simp [Sys2Proof.encode, decode, decodeFrameData, frameTypeRow, hw]

theorem receivePacket (dir : Direction) (payload : Bytes) : Statement (.receivePacket dir payload) := by
  intro hw
  simp only [WellFormed, Instr.wf] at hw
  simp [Sys2Proof.encode, decode, decodeFrameData, frameTypeRow, hw]

theorem explicitRxIndicator (dir : Direction) (payload : Bytes) : Statement (.explicitRxIndicator dir payload) := by
  intro hw
  simp only [WellFormed, Instr.wf] at hw
  simp [Sys2Proof.encode, decode, decodeFrameData, frameTypeRow, hw]

theorem remoteATResponse (dir : Direction) (payload : Bytes) : Statement (.remoteATResponse dir payload) := by
  intro hw
  simp only [WellFormed, Instr.wf] at hw
  simp [Sys2Proof.encode, decode, decodeFrameData, frameTypeRow, hw]

theorem localATCommand (dir : Direction) (payload : Bytes) : Statement (.localATCommand dir payload) := by
  intro hw
  simp only [WellFormed, Instr.wf] at hw
  simp [Sys2Proof.encode, decode, decodeFrameData, frameTypeRow, hw]

theorem localATCommand09 (dir : Direction) (payload : Bytes) : Statement (.localATCommand09 dir payload) := by
  intro hw
  simp only [WellFormed, Instr.wf] at hw
  simp [Sys2Proof.encode, decode, decodeFrameData, frameTypeRow, hw]

theorem remoteATCommand (dir : Direction) (payload : Bytes) : Statement (.remoteATCommand dir payload) := by
  intro hw
  simp only [WellFormed, Instr.wf] at hw
  simp [Sys2Proof.encode, decode, decodeFrameData, frameTypeRow, hw]

theorem transmit (dir : Direction) (payload : Bytes) : Statement (.transmit dir payload) := by
  intro hw
  simp only [WellFormed, Instr.wf] at hw
  simp [Sys2Proof.encode, decode, decodeFrameData, frameTypeRow, hw]

theorem explicitAddressingTransmit (dir : Direction) (payload : Bytes) : Statement (.explicitAddressingTransmit dir payload) := by
  intro hw
  simp only [WellFormed, Instr.wf] at hw
  simp [Sys2Proof.encode, decode, decodeFrameData, frameTypeRow, hw]

theorem unknownType (dir : Direction) (t : Option Byte) (payload : Bytes) : Statement (.unknownType dir t payload) := by
  intro hw
  cases t with
  | none =>
    simp only [WellFormed, Instr.wf, List.isEmpty_iff] at hw
    subst hw
    rfl
  | some t =>
    simp only [WellFormed, Instr.wf, Bool.and_eq_true, Bool.not_eq_true', namedTypes,
      List.contains_eq_mem, decide_eq_false_iff_not, List.mem_cons, not_or, List.not_mem_nil] at hw
    simp [Sys2Proof.encode, decode, decodeFrameData, frameTypeRow, hw]

end Sys2Proof.Laws.RoundTrip
end

