-- ==== Sys2Proof/Tests/Slice0.lean ====
section
/-! SUPPORT. Tests: ill-formed terms the check refuses; words written out from the spec's encodings; one-step results taken
from the vectors V<n> and programs P<n> of spec/95_test_vectors.md; and, for every statement with hypotheses, a concrete
state and operands that meet them. -/

namespace Sys2Proof.Tests

open Sys2Proof Sys2Proof.Machine

/-! ### Helpers -/

/-- The power-on state with the mode and the buffer given. -/
def st (esc : Bool) (buf : Bytes) : State := { State.reset with ctrl := { esc := esc }, buf := buf }

/-- The next state, if there is one. -/
def after : Host.Outcome State Fault Refusal → Option State
  | .next t => some t
  | _ => none

/-- What the next state shows the host, and its buffer. -/
def shows (o : Host.Outcome State Fault Refusal) : Option (Result × Bytes) := (after o).map fun t => (t.result, t.buf)

/-- The six counters of the next state, in the order of their ids. -/
def counts (o : Host.Outcome State Fault Refusal) : Option (List Nat) :=
  (after o).map fun t => [t.nFrame, t.nUnknown, t.nShort, t.nLen, t.nCk, t.nNoise].map BitVec.toNat

/-- Why there is no next state. -/
def why : Host.Outcome State Fault Refusal → Option Refusal
  | .refused r => some r
  | _ => none

theorem long_length (n : Nat) (b : Byte) : (List.replicate n b).length = n := List.length_replicate
theorem long_payload (n : Nat) :
    (Instr.transmit .outbound (List.replicate n 0x00)).wf = decide (n + 1 ≤ 65535) ∧
    (Instr.unknownType .inbound (some 0x8A) (List.replicate n 0x00)).wf = decide (n + 1 ≤ 65535) := by
  simp [Instr.wf, payloadFits, lenMax, namedTypes]

/-! ### WellFormed: each check refuses an ill-formed term -/

theorem test_wf_escAny_named_pair : ¬ WellFormed (.escAny 0x5E) := by decide
theorem test_wf_payload_too_long : (Instr.transmit .outbound (List.replicate 65535 0x00)).wf = false :=
  (long_payload 65535).1
theorem test_wf_unknown_payload_too_long :
    (Instr.unknownType .inbound (some 0x8A) (List.replicate 65535 0x00)).wf = false := (long_payload 65535).2
theorem test_wf_unknown_is_named : ¬ WellFormed (.unknownType .inbound (some 0x8B) []) := by decide
theorem test_wf_no_type_no_payload : ¬ WellFormed (.unknownType .inbound none [0x01]) := by decide
theorem test_wf_longest_payload : WellFormed (.transmit .outbound (List.replicate 65534 0x00)) := (long_payload 65534).1

/-! ### Decoding: words written out from 30_encoding.md R60, R65, R69, R71, R72, R77, R78 and 40_codec.md R99 -/

theorem test_decode_control :
    decode (.command 0b0000#4 []) = .ok .reset ∧
    decode (.command 0b0001#4 [0b00001111]) = .ok (.csrRead 15) ∧
    decode (.command 0b0010#4 [0b00000000, 0b11111110]) = .ok (.csrWrite 0 0xFE) := by decide
theorem test_decode_byte_string_operations :
    decode (.command 0b0011#4 [0xFF, 0x01]) = .ok (.checksum [0xFF, 0x01]) ∧
    decode (.command 0b0100#4 [0x7E]) = .ok (.escape [0x7E]) ∧
    decode (.command 0b0101#4 [0x7E]) = .ok (.validate [0x7E]) ∧
    decode (.command 0b0110#4 [0x7E]) = .ok (.deframe [0x7E]) ∧
    decode (.command 0b0111#4 [0x88]) = .ok (.classify [0x88]) ∧
    decode (.command 0b1000#4 [0x82]) = .ok (.encode [0x82]) ∧
    decode (.command 0b1001#4 []) = .ok (.feed []) ∧
    decode (.command 0b1010#4 [0x7D, 0x5E]) = .ok (.unescape [0x7D, 0x5E]) := by decide
theorem test_decode_frame :
    decode (.logicalFrame [0b01111110, 0b00000000, 0b00000010, 0b10001011, 0b00000001, 0b01110011]) =
      .ok (.frame 0x00 0x02 [0x8B, 0x01] 0x73) := by decide
theorem test_decode_wire_symbols :
    decode (.wireSymbol [0b01111110]) = .ok .startMarker ∧
    decode (.wireSymbol [0b01111101, 0b01011110]) = .ok .esc7E ∧
    decode (.wireSymbol [0b01111101, 0b01011101]) = .ok .esc7D ∧
    decode (.wireSymbol [0b01111101, 0b00110001]) = .ok .esc11 ∧
    decode (.wireSymbol [0b01111101, 0b00110011]) = .ok .esc13 ∧
    decode (.wireSymbol [0b01111101, 0b01111110]) = .ok (.escAny 0x7E) := by decide
theorem test_decode_inbound_types :
    decode (.frameData .inbound [0b10001000, 0x52]) = .ok (.localATResponse .inbound [0x52]) ∧
    decode (.frameData .inbound [0b10001011]) = .ok (.transmitStatus .inbound []) ∧
    decode (.frameData .inbound [0b10001101]) = .ok (.routeInformation .inbound []) ∧
    decode (.frameData .inbound [0b10010000]) = .ok (.receivePacket .inbound []) ∧
    decode (.frameData .inbound [0b10010001]) = .ok (.explicitRxIndicator .inbound []) ∧
    decode (.frameData .inbound [0b10010111]) = .ok (.remoteATResponse .inbound []) := by decide
theorem test_decode_outbound_types :
    decode (.frameData .outbound [0b00001000, 0x52]) = .ok (.localATCommand .outbound [0x52]) ∧
    decode (.frameData .outbound [0b00001001]) = .ok (.localATCommand09 .outbound []) ∧
    decode (.frameData .outbound [0b00010111]) = .ok (.remoteATCommand .outbound []) ∧
    decode (.frameData .outbound [0b00010000]) = .ok (.transmit .outbound []) ∧
    decode (.frameData .outbound [0b00010001]) = .ok (.explicitAddressingTransmit .outbound []) := by decide
theorem test_decode_unknown_type :
    decode (.frameData .inbound [0b10001010, 0x06]) = .ok (.unknownType .inbound (some 0x8A) [0x06]) ∧
    decode (.frameData .inbound []) = .ok (.unknownType .inbound none []) := by decide
/-- Reserved command codes (R78), operand counts and ids (log entry 8), and bytes that are no row. -/
theorem test_decode_refuses :
    decode (.command 0xB#4 []) = .error (.reservedCommand 0xB#4) ∧
    decode (.command 0xF#4 [0x00]) = .error (.reservedCommand 0xF#4) ∧
    decode (.command 0x0#4 [0x00]) = .error .operandCount ∧
    decode (.command 0x1#4 [0x10]) = .error (.noSuchRegister 0x10) ∧
    decode (.logicalFrame [0x55, 0x00, 0x00, 0xFF]) = .error .noStartMarker ∧
    decode (.logicalFrame [0x7E, 0x00, 0x00]) = .error .frameTooShort ∧
    decode (.wireSymbol [0x7E, 0x5E]) = .error .notAWireSymbol := by decide
/-- Words as opcode_table.json numbers them. -/
theorem test_decode_table_words :
    decodeTableWord 8 0xA = some (.unescape []) ∧ decodeTableWord 8 0x7E = some .startMarker ∧
    decodeTableWord 16 0x7D31 = some .esc11 ∧ decodeTableWord 8 0x97 = some (.remoteATResponse .inbound []) ∧
    decodeTableWord 8 0x10 = some (.transmit .outbound []) ∧ decodeTableWord 8 0xF = none := by decide
theorem test_step_runs_a_table_word :
    (after (step ((st false []).withFetchWord 8 0x7E))).map (fun t => (t.buf, t.host)) = some ([0x7E], []) := by decide

/-! ### One step of each operation, against the vectors -/

/-- V127. -/
theorem test_reset :
    (after (exec .reset { st true [0x7E, 0x00] with nFrame := 5 })).map (fun t => (t.buf, t.nFrame, t.ctrl)) =
      some ([], 0, { esc := Config.escReset }) := rfl
/-- V130, V132, V133. -/
theorem test_csrRead :
    shows (exec (.csrRead 0) (st true [])) = some (.value (.ctrl 0x01), []) ∧
    shows (exec (.csrRead 9) (st true [])) = some (.value .zero, []) ∧
    shows (exec (.csrRead 1) (st true [0x7E, 0x00, 0x7D])) = some (.value (.buf [0x7E, 0x00, 0x7D]), [0x7E, 0x00, 0x7D]) := by
  decide
/-- V128, V129, V131. -/
theorem test_csrWrite :
    (after (exec (.csrWrite 0 0x01) (st false []))).map (·.ctrl) = some { esc := true } ∧
    (after (exec (.csrWrite 0 0xFE) (st false []))).map (·.ctrl) = some { esc := false } ∧
    counts (exec (.csrWrite 6 0x00) { st false [] with nCk := 3 }) = some [0, 0, 0, 0, 3, 0] := by decide
/-- V6, V13. -/
theorem test_checksum :
    shows (exec (.checksum [0xFF, 0xFF, 0xFF]) (st false [])) = some (.byte 0x02, []) ∧
    checksum [0x90, 0x00, 0x13, 0xA2, 0x00, 0x7E, 0x7D, 0x11, 0x01, 0x48, 0x69] = 0xFC := by decide
/-- V17, V19. -/
theorem test_escape :
    shows (exec (.escape [0x7E, 0x11, 0x13, 0x7D, 0x7E]) (st false [])) =
      some (.bytes [0x7E, 0x7D, 0x31, 0x7D, 0x33, 0x7D, 0x5D, 0x7D, 0x5E], []) ∧
    escape [0x7D, 0x7D] = [0x7D, 0x7D, 0x5D] := by decide
/-- V34, V36. -/
theorem test_unescape :
    shows (exec (.unescape [0x7D, 0x5E]) (st true [])) = some (.bytes [0x7D, 0x5E], []) ∧
    unescape [0x7E, 0x7D, 0x7D, 0x7D] = [0x7E, 0x5D] := by decide
/-- V40, V52, V47, V39. -/
theorem test_validate :
    shows (exec (.validate [0x7E, 0x00, 0x00, 0xFF]) (st false [])) = some (.verdict true .none, []) ∧
    validate [0x7E, 0x00, 0x05, 0x08, 0x52, 0x49, 0x44, 0x19] = (false, .lengthMismatch) ∧
    validate [0x55, 0x00, 0x04, 0x08, 0x52, 0x49, 0x44, 0x18] = (true, .none) ∧
    validate [0x7E, 0x00, 0x00] = (false, .tooShort) := by decide
/-- V73, V75. -/
theorem test_deframe :
    shows (exec (.deframe [0x7E, 0x00, 0x01, 0x82, 0x7D]) (st false [])) = some (.deframed (.valid [0x82]), []) ∧
    shows (exec (.deframe [0x7E, 0x00, 0x01, 0x82, 0x7D]) (st true [])) =
      some (.deframed (.invalid .lengthMismatch), []) ∧
    deframe true [0x7E, 0x00, 0x7D, 0x21, 0x82, 0x7D, 0x5D] = .valid [0x82] := by decide
/-- V85, V88, V92. -/
theorem test_classify :
    shows (exec (.classify [0x91]) (st false [])) = some (.classified (.known .explicitRxIndicator), []) ∧
    shows (exec (.classify [0x09]) (st false [])) = some (.classified (.unknown (some 0x09)), []) ∧
    shows (exec (.classify []) (st false [])) = some (.classified (.unknown none), []) := by decide
/-- V65, V64. -/
theorem test_encode :
    shows (exec (.encode (0x90 :: List.replicate 16 0x00)) (st true [])) =
      some (.encoded (.ok ([0x7E, 0x00, 0x7D, 0x31, 0x90] ++ List.replicate 16 0x00 ++ [0x6F])), []) ∧
    shows (exec (.encode []) (st true [])) = some (.encoded (.refuse .emptyFrameData), []) := by decide
/-- P4. -/
theorem test_feed_batch :
    shows (exec (.feed [0x7E, 0x00, 0x02, 0x8B, 0x01, 0x73, 0x7E, 0x00, 0x02, 0x8B, 0x01, 0x00, 0x7E, 0x00, 0x02, 0x8A, 0x06,
        0x6F, 0x7E, 0x7E, 0x00, 0x02, 0x97, 0x01, 0x67, 0x7E, 0x00, 0x00, 0xFF]) (st false [])) =
      some (.events [.frame .transmitStatus [0x8B, 0x01],
        .dropped .checksumMismatch [0x7E, 0x00, 0x02, 0x8B, 0x01, 0x00], .unknownType (some 0x8A) [0x8A, 0x06],
        .dropped .tooShort [0x7E], .frame .remoteATResponse [0x97, 0x01], .unknownType none []], []) := by decide
/-- V134, and the counters of P4. -/
theorem test_feed_counters :
    counts (exec (.feed [0x55, 0xAA]) { st false [] with nNoise := 0xFFFFFFFF }) = some [0, 0, 0, 0, 0, 1] ∧
    counts (exec (.feed [0x7E, 0x00, 0x02, 0x8B, 0x01, 0x73, 0x7E, 0x00, 0x02, 0x8B, 0x01, 0x00, 0x7E, 0x00, 0x02, 0x8A, 0x06,
        0x6F, 0x7E, 0x7E, 0x00, 0x02, 0x97, 0x01, 0x67, 0x7E, 0x00, 0x00, 0xFF]) (st false [])) = some [2, 2, 1, 0, 1, 0] := by
  decide
/-- The other keep windows: V121, V124, V125 under [3,5] and [2,4]. -/
theorem test_windows :
    reassemble ⟨3, 5⟩ false [] [0x7E] = ([.dropped .tooShort [0x7E]], []) ∧
    reassemble ⟨3, 5⟩ false [] [0x7E, 0x00, 0x02, 0x8B, 0x01] = ([], [0x7E, 0x00, 0x02, 0x8B, 0x01]) ∧
    reassemble ⟨2, 4⟩ false [] [0x7E, 0x00, 0x02, 0x8B] = ([], [0x7E, 0x00, 0x02, 0x8B]) := by decide

/-- A state in which ENCODE has returned V59's frame and the host's turns are these. -/
def holding (host : List Turn) : State := { st false [] with encoded := [[0x7E, 0x00, 0x01, 0x82, 0x7D]], host := host }

/-- V59; ENCODE does no I/O (20_memory.md R47). -/
theorem test_encode_does_no_io :
    (after (exec (.encode [0x82]) (st false []))).map (fun t => (t.encoded, t.transmitted)) =
      some ([[0x7E, 0x00, 0x01, 0x82, 0x7D]], []) := by decide
/-- 20_memory.md R47, 10_state.md R34, 60_exceptions.md R187: the host's write, of bytes ENCODE did not return, and failed. -/
theorem test_host_write :
    (after (step (holding [.write [0x7E, 0x00, 0x01, 0x82, 0x7D]]))).map (fun t => (t.transmitted, t.host)) =
      some ([0x7E, 0x00, 0x01, 0x82, 0x7D], []) ∧
    why (step (holding [.write [0x55]])) = some .unreturnedBytesWritten ∧
    (after (step (holding [.transportFailure]))).map (·.transmitted) = some [] := by decide

/-! ### The other rows of the table -/

/-- V107 and V108, as the row FRAME. -/
theorem test_frame :
    shows (exec (.frame 0x00 0x02 [0x8B, 0x01] 0x73) (st false [])) =
      some (.events [.frame .transmitStatus [0x8B, 0x01]], []) ∧
    shows (exec (.frame 0x00 0x02 [0x8B, 0x01] 0x00) (st false [])) =
      some (.events [.dropped .checksumMismatch [0x7E, 0x00, 0x02, 0x8B, 0x01, 0x00]], []) := by decide
/-- V111. -/
theorem test_startMarker :
    shows (exec .startMarker (st false [0x7E, 0x00, 0x02])) =
      some (.events [.dropped .tooShort [0x7E, 0x00, 0x02]], [0x7E]) := by decide
/-- A kept `7E 00 00` and the pair `7D DF` are a frame (as in V78); the other cases by R65, R75, R142, R148. -/
theorem test_escape_pairs :
    shows (exec (.escAny 0xDF) (st true [0x7E, 0x00, 0x00])) = some (.events [.unknownType none []], []) ∧
    shows (exec (.escAny 0x7E) (st true [])) = some (.events [.noise [0x7D]], [0x7E]) ∧
    shows (exec .esc7E (st true [])) = some (.events [.noise [0x7D, 0x5E]], []) ∧
    shows (exec .esc7D (st true [0x7E])) = some (.events [], [0x7E, 0x7D, 0x5D]) ∧
    shows (exec .esc11 (st true [0x7E, 0x00])) =
      some (.events [.dropped .tooShort [0x7E, 0x00, 0x7D, 0x31]], []) ∧
    shows (exec .esc13 (st false [0x7E, 0x00])) =
      some (.events [.dropped .lengthMismatch [0x7E, 0x00, 0x7D, 0x33]], []) := by decide
/-- P1 line 4, P2 line 6: the known types received. -/
theorem test_inbound_types :
    shows (exec (.receivePacket .inbound [0x00, 0x13, 0xA2, 0x00, 0x7E, 0x7D, 0x11, 0x01, 0x48, 0x69]) (st true [])) =
      some (.events [.frame .receivePacket [0x90, 0x00, 0x13, 0xA2, 0x00, 0x7E, 0x7D, 0x11, 0x01, 0x48, 0x69]], []) ∧
    shows (exec (.localATResponse .inbound [0x52, 0x49, 0x44, 0x00, 0x12, 0x34]) (st false [])) =
      some (.events [.frame .localATResponse [0x88, 0x52, 0x49, 0x44, 0x00, 0x12, 0x34]], []) := by decide
/-- V55, V62, V115: the outbound types sent, and one received. -/
theorem test_outbound_types :
    shows (exec (.localATCommand .outbound [0x52, 0x49, 0x44]) (st false [])) =
      some (.encoded (.ok [0x7E, 0x00, 0x04, 0x08, 0x52, 0x49, 0x44, 0x18]), []) ∧
    shows (exec (.explicitAddressingTransmit .outbound [0x01]) (st true [])) =
      some (.encoded (.ok [0x7E, 0x00, 0x02, 0x7D, 0x31, 0x01, 0xED]), []) ∧
    shows (exec (.explicitAddressingTransmit .inbound [0x01]) (st true [])) =
      some (.events [.unknownType (some 0x11) [0x11, 0x01]], []) := by decide
/-- V57, V106, V63: the default row. -/
theorem test_unknown_type :
    shows (exec (.unknownType .outbound (some 0x8A) []) (st false [])) =
      some (.encoded (.ok [0x7E, 0x00, 0x01, 0x8A, 0x75]), []) ∧
    shows (exec (.unknownType .inbound none []) (st false [])) = some (.events [.unknownType none []], []) ∧
    shows (exec (.unknownType .outbound none []) (st false [])) = some (.encoded (.refuse .emptyFrameData), []) := by
  decide

/-! ### Witnesses: for every statement with hypotheses, data that meet them, at the boundary of each clause -/

theorem witness_DecodeUndoesEncode :
    WellFormed (.frame 0x00 0x00 [] 0xFF) ∧ WellFormed (.escAny 0x00) ∧ WellFormed (.unknownType .inbound none []) ∧
    WellFormed (.unknownType .outbound (some 0x89) [0x01]) ∧
    WellFormed (.transmit .outbound (List.replicate 65534 0x00)) :=
  ⟨by decide, by decide, by decide, by decide, (long_payload 65534).1⟩
theorem witness_EncodeUndoesDecode : decode (.wireSymbol [0x7D, 0x00]) = .ok (.escAny 0x00) := by decide
theorem witness_CommandCodesAndReservedCodes :
    0xB ≤ (0xB#4).toNat ∧ 0xB ≤ (0xF#4).toNat ∧
    ({ st false [] with host := [.present [.command 0xB#4 []]] } : State).host = .present [.command 0xB#4 []] :: [] := by
  decide
theorem witness_StepRunsThePresentedOperation :
    ({ st false [] with host := [.present [.command 0x3#4 []]] } : State).host = .present [.command 0x3#4 []] :: [] ∧
    decode (.command 0x3#4 []) = .ok (.checksum []) := by decide
theorem witness_OverlappingOperationsAreRefused :
    why (step { st false [] with host := [.present [.command 0x3#4 [], .command 0x0#4 []]] }) =
      some .overlappingOperations := by decide
theorem witness_WaitingAndTransportFailureLeaveTheBlock :
    (st false []).host = [] ∧
    ({ st false [] with host := [.present []] } : State).host = .present [] :: [] ∧
    ({ st false [] with host := [.transportFailure] } : State).host = .transportFailure :: [] := by decide
theorem witness_LongChunksAreRefusedWhereChunkMaxIsSet :
    1 < ([0x55, 0xAA] : Bytes).length ∧ ([0x55, 0xAA] : Bytes).length ≤ 2 ∧
    why (feedUnder (some 1) keepWindow [0x55, 0xAA] (st false [])) = some .chunkTooLong := by decide
theorem witness_CsrReadGivesTheNamedRegister :
    8 ≤ (8#4).toNat ∧ 8 ≤ (15#4).toNat ∧ ¬ 8 ≤ (7#4).toNat := by decide
theorem witness_CsrWriteWritesOnlyTheModeBit : (1#4) ≠ 0#4 ∧ (15#4) ≠ 0#4 := by decide
theorem witness_ReservedIdsReadZeroAndIgnoreWrites : 8 ≤ (8#4).toNat ∧ 1 ≤ (1#4).toNat ∧ 1 ≤ (15#4).toNat := by decide
theorem witness_ChecksumLaws : (0x00#8) ≠ 0xFF#8 := by decide
theorem witness_EscapeLaws :
    ([0x7E] : Bytes) ≠ [] ∧ (escape [0x7E, 0x7D]).tail = [] ++ 0x7D#8 :: [0x5D] ∧ escape [0x11] = escape [0x11] := by decide
theorem witness_UnescapeLaws : 0x7D#8 ∉ ([0x7D, 0x5E] : Bytes).tail ∧ escape [0x11, 0x11] = [0x11, 0x7D, 0x31] := by decide
theorem witness_ValidateVerdict :
    ([0x7E, 0x00, 0x00] : Bytes).length < 4 ∧
    256 * (0x00#8).toNat + (0x01#8).toNat ≠ ([] : Bytes).length ∧
    256 * (0x00#8).toNat + (0x00#8).toNat = ([] : Bytes).length ∧
    ((([] : Bytes).map BitVec.toNat).sum + (0xFE#8).toNat) % 256 ≠ 0xFF ∧
    ((([] : Bytes).map BitVec.toNat).sum + (0xFF#8).toNat) % 256 = 0xFF := by decide
theorem witness_FramedDataValidates :
    ([] : Bytes).length ≤ 65535 ∧ (List.replicate 65535 0xAA#8).length ≤ 65535 :=
  ⟨by decide, le_of_eq (long_length 65535 _)⟩
theorem witness_SingleByteMutations :
    validate ([0x7E, 0x00, 0x00] ++ 0xFF :: []) = (true, .none) ∧ 3 ≤ ([0x7E, 0x00, 0x00] : Bytes).length ∧
    validate ([0x7E, 0x00] ++ 0x00 :: [0xFF]) = (true, .none) ∧ ([0x7E, 0x00] : Bytes).length = 2 ∧
    validate ([0x7E] ++ 0x00 :: [0x00, 0xFF]) = (true, .none) ∧ ([0x7E] : Bytes).length = 1 ∧
    validate ([] ++ 0x7E :: [0x00, 0x00, 0xFF]) = (true, .none) ∧ ([] : Bytes).length = 0 ∧ 0xFF#8 ≠ 0xFE#8 := by decide
theorem witness_CutAndExtendedFramesFailByLength :
    validate ([0x7E, 0x00, 0x01] ++ [0x00, 0xFF]) = (true, .none) ∧ ([0x00, 0xFF] : Bytes) ≠ [] ∧
    validate ([0x7E, 0x00, 0x01, 0x00] ++ [0xFF]) = (true, .none) ∧ ([0xFF] : Bytes) ≠ [] ∧
    validate [0x7E, 0x00, 0x00, 0xFF] = (true, .none) := by decide
theorem witness_EncodeFramesAndEscapes :
    1 ≤ ([0x82] : Bytes).length ∧ ([0x82] : Bytes).length ≤ 65535 ∧ (List.replicate 65535 0xAA#8).length = 65535 :=
  ⟨by decide, by decide, long_length 65535 _⟩
theorem witness_EncodeRefusals : ([] : Bytes) = [] ∧ 65535 < (List.replicate 65536 0x00#8).length :=
  ⟨rfl, lt_of_lt_of_eq (by decide) (long_length 65536 _).symm⟩
theorem witness_DeframeUndoesEncode : 1 ≤ ([0x82] : Bytes).length ∧ ([0x82] : Bytes).length ≤ 65535 := by decide
theorem witness_EncodeLaws :
    encodeFrame false [0x82] = .ok [0x7E, 0x00, 0x01, 0x82, 0x7D] ∧
    encodeFrame true [0x82] = .ok [0x7E, 0x00, 0x01, 0x82, 0x7D, 0x5D] := by decide
theorem witness_DeframeUnescapesThenValidates :
    (validate (unescape [0x7E, 0x00, 0x01, 0x82, 0x7D, 0x5D])).1 = true ∧
    validate (unescape [0x7E, 0x00, 0x01, 0x82, 0x7D]) = (false, .lengthMismatch) := by decide
theorem witness_DeframeLaws :
    encodeFrame true [0x82] = .ok [0x7E, 0x00, 0x01, 0x82, 0x7D, 0x5D] ∧
    deframe false [0x7E, 0x00, 0x00, 0xFF] = .valid [] ∧ ([0x7E, 0x00, 0x00] : Bytes).length < 4 := by decide
theorem witness_ClassifyByTheTypeByte : 0x08#8 ∉ [0x88#8, 0x8B#8, 0x8D#8, 0x90#8, 0x91#8, 0x97#8] := by decide
theorem witness_CandidateOutcome :
    deframe false [0x7E, 0x00, 0x00] = .invalid .tooShort ∧
    deframe false [0x7E, 0x00, 0x01, 0x97, 0x68] = .valid [0x97] ∧ classify [0x97] = .known .remoteATResponse ∧
    deframe false [0x7E, 0x00, 0x00, 0xFF] = .valid [] ∧ classify [] = .unknown none := by decide
/-- P2 line 3 cut at its markers; then tails at the boundary of each clause: kept (3 bytes), delivered and dropped (4). -/
theorem witness_FeedFollowsTheSegments :
    (0x7E#8 ∉ [0x55#8, 0xAA#8] ∧ (∀ g ∈ [[0x00#8, 0x02#8, 0x8B#8, 0x01#8, 0x73#8]], 0x7E#8 ∉ g) ∧ 0x7E#8 ∉ [0x00#8] ∧
      (st false []).buf ++ [0x55, 0xAA, 0x7E, 0x00, 0x02, 0x8B, 0x01, 0x73, 0x7E, 0x00] =
        [0x55, 0xAA] ++ [[0x00#8, 0x02#8, 0x8B#8, 0x01#8, 0x73#8]].flatMap (0x7E#8 :: ·) ++ 0x7E#8 :: [0x00#8]) ∧
    (st false []).buf ++ [0x55, 0xAA] = [0x55, 0xAA] ∧
    deframe false [0x7E, 0x00, 0x00, 0xFF] = .valid [] ∧
    (deframe false (0x7E :: [0x00, 0x02]) = .invalid .tooShort ∧ ([0x00, 0x02] : Bytes).length + 1 ≤ 3) ∧
    deframe false (0x7E :: [0x00, 0x02, 0x8B]) = .invalid .lengthMismatch ∧ 3 < ([0x00, 0x02, 0x8B] : Bytes).length + 1 := by
  decide
theorem witness_buffers :
    BufInv keepWindow [] ∧ BufInv keepWindow [0x7E] ∧ BufInv keepWindow [0x7E, 0x00, 0x7D] ∧
    ¬ BufInv keepWindow [0x7E, 0x00, 0x02, 0x8B] := by decide
theorem witness_EmptyChunkChangesNothing : BufInv keepWindow (st false [0x7E, 0x00]).buf := by decide
theorem witness_LoopBackDelivers :
    (st true []).buf = [] ∧ encodeFrame (st true []).ctrl.esc [0x7E] = .ok [0x7E, 0x00, 0x01, 0x7D, 0x5E, 0x81] ∧
    encodeFrame (st false []).ctrl.esc [0x7E] = .ok [0x7E, 0x00, 0x01, 0x7E, 0x81] := by decide

/-- The frame of source scenario S2 is a wire frame. -/
theorem wireFrame_S2 : WireFrame false [0x8B, 0x01] [0x7E, 0x00, 0x02, 0x8B, 0x01, 0x73] := by
  constructor <;> decide

/-- Two frames, cut after two bytes of the second: P2. -/
theorem witness_SafeCutsDeliverEveryFrame :
    keepWindow.wf ∧
    List.Forall₂ (WireFrame false) [[0x8B, 0x01], [0x8B, 0x01]]
      [[0x7E, 0x00, 0x02, 0x8B, 0x01, 0x73], [0x7E, 0x00, 0x02, 0x8B, 0x01, 0x73]] ∧
    ([[0x7E, 0x00, 0x02, 0x8B, 0x01, 0x73, 0x7E, 0x00], [0x02, 0x8B, 0x01, 0x73]] : List Bytes).flatten =
      ([[0x7E, 0x00, 0x02, 0x8B, 0x01, 0x73], [0x7E, 0x00, 0x02, 0x8B, 0x01, 0x73]] : List Bytes).flatten ∧
    ∀ k ≤ 2, SafeCut keepWindow [[0x7E, 0x00, 0x02, 0x8B, 0x01, 0x73], [0x7E, 0x00, 0x02, 0x8B, 0x01, 0x73]]
      (([[0x7E, 0x00, 0x02, 0x8B, 0x01, 0x73, 0x7E, 0x00], [0x02, 0x8B, 0x01, 0x73]] : List Bytes).take k).flatten.length := by
  refine ⟨by decide, .cons wireFrame_S2 (.cons wireFrame_S2 .nil), by decide, ?_⟩
  intro k hk
  match k, hk with
  | 0, _ => exact ⟨[], _, rfl, .inl rfl⟩
  | 1, _ => exact ⟨[_], [_], rfl, .inr ⟨_, [], 2, rfl, rfl, by decide, by decide, by decide⟩⟩
  | 2, _ => exact ⟨[_, _], [], rfl, .inl rfl⟩
theorem witness_SafeCutKeepsTheHead :
    WireFrame false [0x8B, 0x01] ([0x7E, 0x00, 0x02] ++ [0x8B, 0x01, 0x73]) ∧ ([0x8B, 0x01, 0x73] : Bytes) ≠ [] ∧
    1 ≤ ([0x7E, 0x00, 0x02] : Bytes).length ∧ keepWindow.keeps ([0x7E, 0x00, 0x02] : Bytes).length :=
  ⟨wireFrame_S2, by decide, by decide, by decide⟩
theorem witness_UnsafeCutLosesTheFrame :
    (st false []).buf = [] ∧ WireFrame (st false []).ctrl.esc [0x8B, 0x01] ([0x7E, 0x00, 0x02, 0x8B] ++ [0x01, 0x73]) ∧
    ([0x01, 0x73] : Bytes) ≠ [] ∧ 3 < ([0x7E, 0x00, 0x02, 0x8B] : Bytes).length :=
  ⟨rfl, wireFrame_S2, by decide, by decide⟩
theorem witness_ByteSerialFeedingDeliversNothing :
    (st false []).buf = [] ∧ WireFrame (st false []).ctrl.esc [0x8B, 0x01] [0x7E, 0x00, 0x02, 0x8B, 0x01, 0x73] :=
  ⟨rfl, wireFrame_S2⟩
theorem witness_StreamRecords :
    (holding [.write [0x7E, 0x00, 0x01, 0x82, 0x7D]]).host = .write [0x7E, 0x00, 0x01, 0x82, 0x7D] :: [] ∧
    [0x7E, 0x00, 0x01, 0x82, 0x7D] ∈ (holding []).encoded ∧ [0x55] ∉ (holding []).encoded ∧
    encodeFrame false [0x82] = .ok [0x7E, 0x00, 0x01, 0x82, 0x7D] ∧ encodeFrame false [] = .refuse .emptyFrameData ∧
    (holding [.transportFailure]).host = .transportFailure :: [] := by decide
theorem witness_StartMarkerOpensACandidate :
    BufInv keepWindow (st false []).buf ∧ BufInv keepWindow (st false [0x7E, 0x00, 0x02]).buf := by decide
theorem witness_EscapePairsArrive :
    (Instr.esc7E, 0x5E#8) ∈ pairRows ∧ BufInv keepWindow (st true []).buf ∧ BufInv keepWindow (st true [0x7E]).buf ∧
    BufInv keepWindow (st true [0x7E, 0x00]).buf ∧ 2 ≤ (st true [0x7E, 0x00]).buf.length ∧
    0x5E#8 ≠ 0x7E#8 ∧ Instr.escAny 0x7E#8 = .escAny 0x7E#8 := by decide
theorem witness_EscapePairsStandForOneByte : 0x13#8 ∈ escSet := by decide
theorem witness_FrameRowIsDeliveredOrDropped :
    validate (0x7E :: 0x00 :: 0x02 :: ([0x8B, 0x01] ++ [0x73])) = (true, .none) ∧
    validate (0x7E :: 0x00 :: 0x00 :: ([] ++ [0xFE])) = (false, .checksumMismatch) ∧ BufInv keepWindow (st false [0x7E]).buf ∧
    0x7E#8 ∉ 0x00#8 :: 0x02#8 :: ([0x8B#8, 0x01#8] ++ [0x73#8]) ∧ (st true []).ctrl.esc = true := by decide
theorem witness_InboundFrameTypesAreDelivered :
    inboundRows.map (fun row => row.1 .inbound []) = [.localATResponse .inbound [], .transmitStatus .inbound [],
      .routeInformation .inbound [], .receivePacket .inbound [], .explicitRxIndicator .inbound [],
      .remoteATResponse .inbound []] ∧
    ([0x01] : Bytes).length + 1 ≤ 65535 ∧ (st false []).buf = [] ∧ 0x7E#8 ∉ (rawFrame (0x97#8 :: [0x01])).tail := by decide
theorem witness_OutboundFrameTypes :
    outboundRows.map (fun row => row.1 .outbound []) = [.localATCommand .outbound [], .localATCommand09 .outbound [],
      .remoteATCommand .outbound [], .transmit .outbound [], .explicitAddressingTransmit .outbound []] ∧
    ([] : Bytes).length + 1 ≤ 65535 ∧ (st true []).buf = [] ∧ (st true []).ctrl.esc = true := by decide
theorem witness_OtherDirectionsAndUnknownTypes :
    WellFormed (.unknownType .inbound none []) ∧ WellFormed (.unknownType .inbound (some 0x7E) []) ∧
    (st false []).buf = [] ∧ 0x7E#8 ∉ (rawFrame []).tail ∧ (st true []).ctrl.esc = true := by decide
theorem witness_ConditionCodes :
    encodeFrame false [] = .refuse .emptyFrameData ∧ deframe false [0x7E] = .invalid .tooShort ∧
    classify [0x88] = .known .localATResponse ∧ classify [] = .unknown none := by decide
/-- A step that feeds, from a state that meets the three invariants. -/
theorem witness_steps :
    (after (step { st false [] with host := [.present [.command 0x9#4 [0x55, 0x7E]]] })).map (fun t => (t.events, t.buf)) =
      some ([.noise [0x55]], [0x7E]) ∧
    BufInv keepWindow (st false []).buf := by decide
theorem witness_CounterLaw : CounterLaw { st false [] with host := [.present [.command 0x9#4 [0x55, 0x7E]]] } :=
  ⟨rfl, rfl, rfl, rfl, rfl, rfl⟩
theorem witness_Accounted : Accounted { st false [] with host := [.present [.command 0x9#4 [0x55, 0x7E]]] } :=
  ⟨[], rfl, .nil⟩
theorem witness_OnlyFeedAndResetWriteTheReceiver :
    (∃ t, exec (.csrWrite 0 0x01) (st false [0x7E]) = .next t) ∧ rowFeeds (.csrWrite 0 0x01) = false ∧
    Instr.csrWrite 0 0x01 ≠ .reset := ⟨⟨_, rfl⟩, rfl, by decide⟩
theorem witness_TransmitLaw : TransmitLaw (holding [.write [0x7E, 0x00, 0x01, 0x82, 0x7D]]) :=
  ⟨⟨[], rfl, by simp⟩, fun w hw => ⟨false, [0x82], by simp only [holding, List.mem_singleton] at hw; subst hw; decide⟩⟩
theorem witness_OnlyTheirOwnersWriteModeAndTransmitStream :
    (∃ t, step (holding [.write [0x7E, 0x00, 0x01, 0x82, 0x7D]]) = .next t) ∧
    (∃ t, exec (.feed [0x7E]) (st false []) = .next t) ∧ Instr.feed [0x7E] ≠ .reset ∧
    (∀ id v, Instr.feed [0x7E] ≠ .csrWrite id v) ∧ rowEncodes (.feed [0x7E]) = false :=
  ⟨⟨_, rfl⟩, ⟨_, rfl⟩, by decide, by simp, rfl⟩
theorem witness_DirectionsAreIndependent :
    (st false [0x7E]).ctrl = (st false [0x7E, 0x00]).ctrl ∧
    (st false [0x7E]).buf = ({ st false [0x7E] with transmitted := [0x7E] } : State).buf := by decide
theorem witness_PartialFrameWaits :
    BufInv keepWindow (st false [0x7E, 0x00]).buf ∧
    ∀ i ∈ [Instr.csrWrite 0 0x01, .feed [], .encode [0x82]], i ≠ .reset ∧ (rowFeeds i = false ∨ i = .feed []) := by decide

end Sys2Proof.Tests
end

section
/-! SUPPORT. The proofs of the statements about the state (10_state.md): the registers, what writes the receiver, the
counters, the invariants every step keeps, the streams. -/

namespace Sys2Proof.Machine

/-! ### The operations through exec -/

theorem exec_reset (s : State) : exec .reset s = .next s.restarted := rfl

theorem exec_csrRead (id : BitVec 4) (s : State) :
    exec (.csrRead id) s = .next (s.returning (.value (s.readCsr (Csr.ofId id)))) := rfl

theorem exec_csrWrite (id : BitVec 4) (v : Byte) (s : State) :
    exec (.csrWrite id v) s = .next ((s.writeCsr v (Csr.ofId id)).returning .none) := rfl

theorem exec_encode (fd : Bytes) (s : State) : exec (.encode fd) s = .next (s.sent fd) := rfl

theorem exec_feed (chunk : Bytes) (s : State) : exec (.feed chunk) s = .next (s.fed keepWindow chunk) := rfl

/-! ### Registers -/

/-- Ids 8 to 15 name no register (10_state.md R29). -/
theorem Csr.ofId_eq_reserved {id : BitVec 4} (h : 8 ≤ id.toNat) : Csr.ofId id = .reserved := by
  unfold Csr.ofId
  split
  case h_9 => rfl
  all_goals omega

/-- Only id 0 names CTRL (10_state.md R28). -/
theorem Csr.ofId_ne_ctrl {id : BitVec 4} (h : 1 ≤ id.toNat) : Csr.ofId id ≠ .ctrl := by
  unfold Csr.ofId
  split
  case h_1 => omega
  all_goals nofun

/-- A write of a read-only or reserved register is ignored (10_state.md R29). -/
theorem State.writeCsr_of_ne_ctrl (s : State) (v : Byte) {r : Csr} (h : r ≠ .ctrl) : s.writeCsr v r = s := by
  cases r with
  | ctrl => exact absurd rfl h
  | buf | counter | reserved => rfl

/-- What CTRL reads after a write: bit 0 of what was written (10_state.md R26). -/
theorem Ctrl.toByte_ofByte (v : Byte) : (Ctrl.ofByte v).toByte = v &&& 0x01#8 := by
  rw [BitVec.and_one_eq_setWidth_ofBool_getLsbD, Ctrl.toByte, Ctrl.ofByte]
  cases v.getLsbD 0 <;> rfl

theorem State.restarted_restarted (s : State) : s.restarted.restarted = s.restarted := rfl

theorem State.restarted_reset : State.reset.restarted = State.reset := rfl

/-! ### Who writes the receiver -/

/-- The receiver's fields (the buffer, the counters, the receive and event streams) are the same in both states. -/
structure SameReceiver (s t : State) : Prop where
  buf : t.buf = s.buf
  counter : ∀ name, t.counter name = s.counter name
  received : t.received = s.received
  events : t.events = s.events

theorem SameReceiver.trans {s t u : State} (h : SameReceiver s t) (h' : SameReceiver t u) : SameReceiver s u where
  buf := h'.buf.trans h.buf
  counter name := (h'.counter name).trans (h.counter name)
  received := h'.received.trans h.received
  events := h'.events.trans h.events

theorem sameReceiver_host (s : State) (rest : List Turn) : SameReceiver s { s with host := rest } :=
  ⟨rfl, fun _ => rfl, rfl, rfl⟩

theorem sameReceiver_written (s : State) (bytes : Bytes) : SameReceiver s (s.written bytes) :=
  ⟨rfl, fun _ => rfl, rfl, rfl⟩

theorem sameReceiver_returning (s : State) (r : Result) : SameReceiver s (s.returning r) :=
  ⟨rfl, fun _ => rfl, rfl, rfl⟩

theorem sameReceiver_sent (s : State) (fd : Bytes) : SameReceiver s (s.sent fd) :=
  ⟨rfl, fun _ => rfl, rfl, rfl⟩

theorem sameReceiver_writeCsr (s : State) (v : Byte) (r : Csr) : SameReceiver s (s.writeCsr v r) := by
  cases r <;> exact ⟨rfl, fun _ => rfl, rfl, rfl⟩

/-- What one instruction can do to the receiver: nothing, a FEED, or a RESET. -/
theorem Effect.receiver {i : Instr} {s t : State} (h : Effect i s t) :
    SameReceiver s t ∨ (rowFeeds i = true ∧ ∃ chunk, t = s.fed keepWindow chunk) ∨ (i = .reset ∧ t = s.restarted) := by
  cases h with
  | reset hi => exact .inr (.inr ⟨hi, rfl⟩)
  | csrWrite id v hi => exact .inl ((sameReceiver_writeCsr s v _).trans (sameReceiver_returning _ _))
  | fed chunk hf => exact .inr (.inl ⟨hf, chunk, rfl⟩)
  | sent fd he => exact .inl (sameReceiver_sent s fd)
  | returned r hf he => exact .inl (sameReceiver_returning s r)

/-- What one step can do to the receiver: nothing, a FEED, or a RESET. -/
theorem step_receiver {s t : State} (h : step s = .next t) :
    SameReceiver s t ∨ (∃ u chunk, SameReceiver s u ∧ t = u.fed keepWindow chunk) ∨ ∃ u, t = State.restarted u := by
  rcases step_next h with ⟨rest, rfl⟩ | ⟨bytes, rest, -, -, rfl⟩ | ⟨p, rest, i, -, -, hx⟩
  · exact .inl (sameReceiver_host s rest)
  · exact .inl ((sameReceiver_host s rest).trans (sameReceiver_written _ bytes))
  · rcases (exec_next hx).receiver with hs | ⟨-, chunk, rfl⟩ | ⟨-, rfl⟩
    · exact .inl ((sameReceiver_host s rest).trans hs)
    · exact .inr (.inl ⟨_, chunk, sameReceiver_host s rest, rfl⟩)
    · exact .inr (.inr ⟨_, rfl⟩)

/-! ### The counters -/

/-- How many events of a counter's kind there are, the bytes they carry for `N_NOISE` (10_state.md R28). -/
def tally : CounterName → List Event → Nat
  | .nFrame, es => es.countP Event.isFrame
  | .nUnknown, es => es.countP Event.isUnknown
  | .nShort, es => es.countP (Event.isDropped .tooShort)
  | .nLen, es => es.countP (Event.isDropped .lengthMismatch)
  | .nCk, es => es.countP (Event.isDropped .checksumMismatch)
  | .nNoise, es => (es.map Event.noiseBytes).sum

theorem tally_append (name : CounterName) (a b : List Event) : tally name (a ++ b) = tally name a + tally name b := by
  cases name <;> simp [tally]

/-- An event moves a counter by what it adds to the tally. -/
theorem weight_eq_tally (name : CounterName) (e : Event) : e.weight name = tally name [e] := by
  cases e with
  | dropped r raw => cases name <;> cases r <;> rfl
  | frame | unknownType | noise => cases name <;> rfl

theorem sum_weight_eq_tally (name : CounterName) (es : List Event) :
    (es.map (Event.weight name)).sum = tally name es := by
  induction es with
  | nil => cases name <;> rfl
  | cons e es ih => rw [List.map_cons, List.sum_cons, ih, weight_eq_tally, ← tally_append, List.singleton_append]

theorem counterLaw_iff (s : State) :
    CounterLaw s ↔ ∀ name, (s.counter name).toNat = tally name s.events % 2 ^ Config.cntW := by
  constructor
  · intro h name
    cases name with
    | nFrame => exact h.frame
    | nUnknown => exact h.unknown
    | nShort => exact h.short
    | nLen => exact h.len
    | nCk => exact h.ck
    | nNoise => exact h.noise
  · intro h
    exact ⟨h .nFrame, h .nUnknown, h .nShort, h .nLen, h .nCk, h .nNoise⟩

/-- FEED moves each counter by the tally of the pass. -/
theorem State.fed_counter (w : Window) (s : State) (chunk : Bytes) (name : CounterName) :
    (s.fed w chunk).counter name =
      (s.counter name).add (tally name (reassemble w s.ctrl.esc s.buf chunk).1) := by
  rw [← sum_weight_eq_tally]
  cases name <;> simp [State.counter]

theorem CounterLaw.of_sameReceiver {s t : State} (h : SameReceiver s t) (hs : CounterLaw s) : CounterLaw t := by
  rw [counterLaw_iff] at hs ⊢
  intro name
  rw [h.counter, h.events, hs]

theorem CounterLaw.fed {s : State} (w : Window) (chunk : Bytes) (hs : CounterLaw s) : CounterLaw (s.fed w chunk) := by
  rw [counterLaw_iff] at hs ⊢
  intro name
  rw [State.fed_counter, Counter.add_toNat, hs, State.fed_events, tally_append, Nat.mod_add_mod]

theorem counterLaw_restarted (s : State) : CounterLaw s.restarted := ⟨rfl, rfl, rfl, rfl, rfl, rfl⟩

/-! ### Who writes the mode and the host's side -/

theorem Effect.host_eq {i : Instr} {s t : State} (h : Effect i s t) : t.host = s.host := by
  cases h <;> simp

theorem Effect.transmitted_eq {i : Instr} {s t : State} (h : Effect i s t) : t.transmitted = s.transmitted := by
  cases h <;> simp

theorem Effect.ctrl_eq {i : Instr} {s t : State} (h : Effect i s t) (hr : i ≠ .reset)
    (hw : ∀ id v, i ≠ .csrWrite id v) : t.ctrl = s.ctrl := by
  cases h with
  | reset hi => exact absurd hi hr
  | csrWrite id v hi => exact absurd hi (hw id v)
  | fed chunk hf => exact State.fed_ctrl _ _ _
  | sent fd he => rfl
  | returned r hf he => rfl

theorem Effect.encoded_eq {i : Instr} {s t : State} (h : Effect i s t) (hi : rowEncodes i = false) :
    t.encoded = s.encoded := by
  cases h with
  | reset => rfl
  | csrWrite => simp
  | fed => simp
  | sent fd he => simp [hi] at he
  | returned => rfl

/-! ### The host's turns -/

/-- A write of a byte string that ENCODE returned appends it (20_memory.md R47; log entry 12). -/
theorem step_write_returned {s : State} {w : Bytes} {rest : List Turn} (hh : s.host = .write w :: rest)
    (hw : w ∈ s.encoded) : step s = .next (State.written { s with host := rest } w) := by
  simp [step, fetch, hh, hw]

/-- A write of any other bytes has no step (10_state.md R34; log entry 12). -/
theorem step_write_unreturned {s : State} {w : Bytes} {rest : List Turn} (hh : s.host = .write w :: rest)
    (hw : w ∉ s.encoded) : step s = .refused .unreturnedBytesWritten := by
  simp [step, fetch, hh, hw]

/-- A transport failure only uses the turn up (60_exceptions.md R187). -/
theorem step_transportFailure {s : State} {rest : List Turn} (hh : s.host = .transportFailure :: rest) :
    step s = .next { s with host := rest } := by
  simp [step, fetch, hh]

/-! ### The statements -/

/-- Settles O53: a step leaves the receiver alone, resets it, or makes one pass, which leaves a candidate in the window or
nothing. -/
theorem stepKeepsTheBufferInvariant : Obligations.StepKeepsTheBufferInvariant := by
  intro s t h hs
  rcases step_receiver h with hsame | ⟨u, chunk, -, rfl⟩ | ⟨u, rfl⟩
  · rwa [hsame.buf]
  · rw [State.fed_buf]
    exact (reassemble_spec keepWindow u.ctrl.esc u.buf chunk).1
  · exact .inl rfl

/-- Settles O54: a step leaves counters and events alone, resets both, or appends the events of one pass and moves each
counter by their tally. -/
theorem stepKeepsTheCounterLaw : Obligations.StepKeepsTheCounterLaw := by
  intro s t h hs
  rcases step_receiver h with hsame | ⟨u, chunk, hsame, rfl⟩ | ⟨u, rfl⟩
  · exact hs.of_sameReceiver hsame
  · exact (hs.of_sameReceiver hsame).fed keepWindow chunk
  · exact counterLaw_restarted u

/-- Settles O35, from the tally by which FEED moves each counter. -/
theorem feedCountsItsEvents : Obligations.FeedCountsItsEvents := by
  intro s chunk
  have h (name : CounterName) : ((s.fed keepWindow chunk).counter name).toNat =
      ((s.counter name).toNat + tally name (reassemble keepWindow s.ctrl.esc s.buf chunk).1) % 2 ^ Config.cntW := by
    rw [State.fed_counter, Counter.add_toNat]
  exact ⟨_, _, exec_feed chunk s, State.fed_result _ _ _,
    h .nFrame, h .nUnknown, h .nShort, h .nLen, h .nCk, h .nNoise⟩

/-- Settles O57: of the three things an instruction can do to the receiver, the hypotheses leave only nothing. -/
theorem onlyFeedAndResetWriteTheReceiver : Obligations.OnlyFeedAndResetWriteTheReceiver := by
  intro i s t h hf hr
  rcases (exec_next h).receiver with hs | ⟨hf', -⟩ | ⟨hr', -⟩
  · exact ⟨hs.buf, hs.counter .nFrame, hs.counter .nUnknown, hs.counter .nShort, hs.counter .nLen, hs.counter .nCk,
      hs.counter .nNoise, hs.received, hs.events⟩
  · simp [hf] at hf'
  · exact absurd hr' hr

/-- Settles O58: the instructions by their effects, the step by what it can do. -/
theorem onlyTheirOwnersWriteModeAndTransmitStream : Obligations.OnlyTheirOwnersWriteModeAndTransmitStream := by
  refine ⟨fun i s t h => ?_, fun s t h => ?_⟩
  · have he := exec_next h
    exact ⟨he.host_eq, he.transmitted_eq, he.ctrl_eq, he.encoded_eq⟩
  · rcases step_next h with ⟨rest, rfl⟩ | ⟨bytes, rest, hh, hb, rfl⟩ | ⟨p, rest, i, -, -, hx⟩
    · exact .inl rfl
    · exact .inr ⟨bytes, rest, hh, hb, rfl⟩
    · exact .inl (exec_next hx).transmitted_eq

/-- Settles O10: every field of the state RESET leaves is a constant or the host's own. -/
theorem resetLeavesThePowerOnState : Obligations.ResetLeavesThePowerOnState := by
  refine ⟨fun s => ⟨s.restarted, exec_reset s, rfl, rfl, exec_csrRead 0#4 _, rfl, rfl, rfl, rfl, rfl, rfl, rfl, ?_⟩, ?_⟩
  · rw [exec_reset, State.restarted_restarted]
  · rw [exec_reset, State.restarted_reset]

/-- Settles O13, from what CTRL reads after a write. -/
theorem ctrlReadsBackBitZeroOnly : Obligations.CtrlReadsBackBitZeroOnly := by
  intro s v
  refine ⟨_, _, exec_csrWrite 0#4 v s, exec_csrRead 0#4 _, ?_⟩
  rw [← Ctrl.toByte_ofByte]
  rfl

/-- Settles O14: ids from 8 on name no register, ids from 1 on do not name CTRL. -/
theorem reservedIdsReadZeroAndIgnoreWrites : Obligations.ReservedIdsReadZeroAndIgnoreWrites := by
  intro s id v
  refine ⟨fun h => ?_, fun h => ?_⟩
  · rw [exec_csrRead, Csr.ofId_eq_reserved h]
    rfl
  · rw [exec_csrWrite, State.writeCsr_of_ne_ctrl s v (Csr.ofId_ne_ctrl h)]
    rfl

/-- Settles O44: the streams after FEED, ENCODE, the host's write and its failure, and RESET, one clause each. -/
theorem streamRecords : Obligations.StreamRecords := by
  intro s
  refine ⟨fun chunk => ?feed, fun fd => ?encode, fun w rest hh => ⟨step_write_returned hh, step_write_unreturned hh⟩,
    fun rest hh => ⟨_, step_transportFailure hh, rfl⟩, ?reset⟩
  case feed =>
    exact ⟨_, _, exec_feed chunk s, State.fed_result _ _ _, State.fed_received _ _ _, State.fed_events _ _ _,
      State.fed_transmitted _ _ _⟩
  case encode =>
    refine ⟨_, _, exec_encode fd s, State.sent_result s fd, rfl, fun w he => ?_, fun why he => ?_⟩
    · rw [State.sent_encoded, he, Encoded.wires]
    · rw [State.sent_encoded, he, Encoded.wires, List.append_nil]
  case reset => exact ⟨_, exec_reset s, rfl, rfl, rfl, rfl, rfl⟩

/-- Settles O56: the power-on state is a state RESET leaves, and its records are empty. -/
theorem resetMeetsTheInvariants : Obligations.ResetMeetsTheInvariants := by
  exact ⟨.inl rfl, counterLaw_restarted State.reset, ⟨[], rfl, .nil⟩,
    ⟨⟨[], rfl, List.forall_mem_nil _⟩, List.forall_mem_nil _⟩⟩

/-- Settles O59: ENCODE reads the mode only, FEED the mode and the buffer only. -/
theorem directionsAreIndependent : Obligations.DirectionsAreIndependent := by
  intro s s' hc
  refine ⟨fun fd => ⟨_, _, exec_encode fd s, exec_encode fd s', ?_⟩,
    fun hb chunk => ⟨_, _, exec_feed chunk s, exec_feed chunk s', ?_, ?_⟩⟩
  · rw [State.sent_result, State.sent_result, hc]
  · rw [State.fed_result, State.fed_result, hc, hb]
  · rw [State.fed_buf, State.fed_buf, hc, hb]

end Sys2Proof.Machine
end

section
/-! SUPPORT. The proofs of the statements about the host and the streams (20_memory.md): the host's turns, the account of
every byte received and sent, and the partial frame that waits. -/

namespace Sys2Proof.Machine

/-! ### One turn of the host -/

theorem fetch_nil {s : State} (hh : s.host = []) : fetch s = .idle s := by
  simp [fetch, hh]

theorem fetch_present_nil {s : State} {rest : List Turn} (hh : s.host = .present [] :: rest) :
    fetch s = .idle { s with host := rest } := by
  simp [fetch, hh]

theorem fetch_present_one {s : State} {p : Presentation} {rest : List Turn} (hh : s.host = .present [p] :: rest) :
    fetch s = .run p { s with host := rest } := by
  simp [fetch, hh]

theorem fetch_present_several {s : State} {p q : Presentation} {ps : List Presentation} {rest : List Turn}
    (hh : s.host = .present (p :: q :: ps) :: rest) : fetch s = .noStep .overlappingOperations := by
  simp [fetch, hh]

theorem step_of_fetch_idle {s t : State} (hf : fetch s = .idle t) : step s = .next t := by
  simp [step, hf]

theorem step_of_fetch_run {s t : State} {p : Presentation} {i : Instr} (hf : fetch s = .run p t)
    (hd : decode p = .ok i) : step s = exec i t := by
  simp [step, hf, hd]

theorem step_of_fetch_noStep {s : State} {why : Refusal} (hf : fetch s = .noStep why) : step s = .refused why := by
  simp [step, hf]

/-! ### The account of the receive stream -/

theorem Accounted.of_sameReceiver {s t : State} (h : SameReceiver s t) (hs : Accounted s) : Accounted t := by
  unfold Accounted
  rw [h.buf, h.received, h.events]
  exact hs

/-- One pass carries the account on: the pieces so far, then the pieces of the pass, all judged in the mode in force. -/
theorem Accounted.fed {s : State} (w : Window) (chunk : Bytes) (hs : Accounted s) : Accounted (s.fed w chunk) := by
  obtain ⟨old, hold, holdEvents⟩ := hs
  obtain ⟨-, new, hnew, hnewEvents⟩ := reassemble_spec w s.ctrl.esc s.buf chunk
  refine ⟨old ++ new.map (Prod.mk s.ctrl.esc), ?bytes, ?events⟩
  case bytes =>
    have hsnd : (new.map (Prod.mk s.ctrl.esc)).map Prod.snd = new := by simp
    rw [State.fed_buf, State.fed_received, List.map_append, hsnd, List.flatten_append, List.append_assoc, ← hnew,
      ← List.append_assoc, hold]
  case events =>
    rw [State.fed_events]
    exact List.rel_append holdEvents (List.forall₂_map_left_iff.2 hnewEvents)

theorem accounted_restarted (s : State) : Accounted s.restarted := ⟨[], rfl, .nil⟩

/-! ### The law of the transmit stream -/

/-- The law speaks of two fields only. -/
theorem TransmitLaw.of_eq {s t : State} (hs : TransmitLaw s) (hx : t.transmitted = s.transmitted)
    (he : t.encoded = s.encoded) : TransmitLaw t where
  written := by rw [hx, he]; exact hs.written
  returned := by rw [he]; exact hs.returned

/-- The host's write adds one byte string to the written ones, one that ENCODE returned. -/
theorem TransmitLaw.written_mem {s : State} {bytes : Bytes} (hb : bytes ∈ s.encoded) (hs : TransmitLaw s) :
    TransmitLaw (s.written bytes) where
  written := by
    obtain ⟨ws, hws, hmem⟩ := hs.written
    exact ⟨ws ++ [bytes], by simp [hws], List.forall_mem_append.2 ⟨hmem, by simpa using hb⟩⟩
  returned := hs.returned

theorem Encoded.mem_wires {e : Encoded} {w : Bytes} : w ∈ e.wires ↔ e = .ok w := by
  cases e <;> simp [Encoded.wires, eq_comm]

/-- ENCODE adds to what the host may write only what it returns. -/
theorem TransmitLaw.sent {s : State} (fd : Bytes) (hs : TransmitLaw s) : TransmitLaw (s.sent fd) where
  written := by
    obtain ⟨ws, hws, hmem⟩ := hs.written
    exact ⟨ws, hws, fun w hw => List.mem_append_left _ (hmem w hw)⟩
  returned := List.forall_mem_append.2
    ⟨hs.returned, fun _ hw => ⟨s.ctrl.esc, fd, Encoded.mem_wires.1 hw⟩⟩

/-- An ENCODE adds to the host's store; no other effect changes it, and none writes the transmit stream. -/
theorem Effect.transmitLaw {i : Instr} {s t : State} (h : Effect i s t) (hs : TransmitLaw s) : TransmitLaw t := by
  cases h with
  | sent fd he => exact hs.sent fd
  | reset hi => exact hs.of_eq rfl rfl
  | csrWrite id v hi => exact hs.of_eq (by simp) (by simp)
  | fed chunk hf => exact hs.of_eq (State.fed_transmitted _ _ _) (State.fed_encoded _ _ _)
  | returned r hf he => exact hs.of_eq rfl rfl

/-! ### A buffer that waits -/

/-- A kept tail of the default window is too short for any frame, so an empty chunk leaves it, in either mode
(43_reassembler.md R154; log entry 19). -/
theorem reassemble_empty_chunk (esc : Bool) {buf : Bytes} (h : BufInv keepWindow buf) :
    reassemble keepWindow esc buf [] = ([], buf) := by
  rcases bufInv_cases h with rfl | ⟨g, rfl, hg, hkeep⟩
  · exact reassemble_noise keepWindow esc List.not_mem_nil
  · have hshort : deframe esc (startMarker :: g) = .invalid .tooShort := deframe_short (Nat.lt_succ_of_le hkeep.2)
    rw [reassemble_extend keepWindow esc hg List.not_mem_nil, List.append_nil]
    simp only [tailOutcome, hshort, if_pos hkeep]

theorem runAll_cons_of_next {i : Instr} {s t : State} (is : List Instr) (h : exec i s = .next t) :
    runAll (i :: is) s = runAll is t := by
  simp [runAll, h]

/-- An operation that is no RESET, and no FEED but one of an empty chunk, leaves the buffer. -/
theorem exec_buf_waits {i : Instr} {s : State} (hs : BufInv keepWindow s.buf) (hr : i ≠ .reset)
    (hi : rowFeeds i = false ∨ i = .feed []) : ∃ t, exec i s = .next t ∧ t.buf = s.buf := by
  rcases hi with hf | rfl
  · obtain ⟨t, hx, -⟩ := exec_effect i s
    obtain ⟨hbuf, -⟩ := onlyFeedAndResetWriteTheReceiver i s t hx hf hr
    exact ⟨t, hx, hbuf⟩
  · exact ⟨_, exec_feed [] s, by rw [State.fed_buf, reassemble_empty_chunk _ hs]⟩

/-! ### The statements -/

/-- Settles O55: a step leaves the receiver alone, resets it, or makes one pass, which accounts for the bytes it takes; and
it leaves the host's side alone, adds what ENCODE returned to the store, or writes a byte string of the store. -/
theorem stepKeepsTheAccount : Obligations.StepKeepsTheAccount := by
  intro s t h
  refine ⟨fun hs => ?received, fun hs => ?transmitted⟩
  case received =>
    rcases step_receiver h with hsame | ⟨u, chunk, hsame, rfl⟩ | ⟨u, rfl⟩
    · exact hs.of_sameReceiver hsame
    · exact (hs.of_sameReceiver hsame).fed keepWindow chunk
    · exact accounted_restarted u
  case transmitted =>
    have hturn (rest : List Turn) : TransmitLaw { s with host := rest } := hs.of_eq rfl rfl
    rcases step_next h with ⟨rest, rfl⟩ | ⟨bytes, rest, -, hb, rfl⟩ | ⟨p, rest, i, -, -, hx⟩
    · exact hturn rest
    · exact (hturn rest).written_mem hb
    · exact (exec_next hx).transmitLaw (hturn rest)

/-- Settles O60, by induction on the operations: each leaves the buffer, and with it the buffer invariant. -/
theorem partialFrameWaits : Obligations.PartialFrameWaits := by
  intro is
  induction is with
  | nil => exact fun s _ _ => ⟨s, rfl, rfl⟩
  | cons i is ih =>
    intro s hs hall
    obtain ⟨⟨hr, hi⟩, hrest⟩ := List.forall_mem_cons.1 hall
    obtain ⟨t, hx, ht⟩ := exec_buf_waits hs hr hi
    obtain ⟨u, hu, hub⟩ := ih t (ht ▸ hs) hrest
    exact ⟨u, (runAll_cons_of_next is hx).trans hu, hub.trans ht⟩

/-- Settles O5: the turn of one operation is that operation, to be run with the turn taken off the port. -/
theorem stepRunsThePresentedOperation : Obligations.StepRunsThePresentedOperation :=
  fun _ _ _ _ hh hd => step_of_fetch_run (fetch_present_one hh) hd

/-- Settles O6: a turn of two operations or more is refused before any is decoded. -/
theorem overlappingOperationsAreRefused : Obligations.OverlappingOperationsAreRefused :=
  fun _ _ _ _ _ hh => step_of_fetch_noStep (fetch_present_several hh)

/-- Settles O7: with no turn, an empty turn or a transport failure there is nothing to run. -/
theorem waitingAndTransportFailureLeaveTheBlock : Obligations.WaitingAndTransportFailureLeaveTheBlock :=
  ⟨fun _ hh => step_of_fetch_idle (fetch_nil hh), fun _ _ hh => step_of_fetch_idle (fetch_present_nil hh),
    fun _ _ hh => step_transportFailure hh⟩

end Sys2Proof.Machine
end

section
/-! SUPPORT. The proofs of the statements about the encoding (30_encoding.md): decoder and encoder undo each other, the
command codes, and the wire items as they arrive. -/

namespace Sys2Proof

/-! ### What the decoder answers is well-formed and encodes back -/

/-- Two commands are the same when their codes are the same number. -/
theorem command_eq_of_toNat {c cmd : BitVec 4} (operands : Bytes) (h : cmd.toNat = c.toNat) :
    Presentation.command c operands = .command cmd operands :=
  congrArg (Presentation.command · operands) (BitVec.eq_of_toNat_eq h.symm)

/-- An instruction read with a register id comes from an id operand that decodes, and is that id's instruction. -/
theorem decodeId_map_ok {b : Byte} {f : BitVec 4 → Instr} {i : Instr} (h : (decodeId b).map f = .ok i) :
    ∃ id, BitVec.ofNat 8 id.toNat = b ∧ i = f id := by
  cases hd : decodeId b with
  | error e => simp [hd, Except.map] at h
  | ok id =>
    rw [hd] at h
    injection h with h
    exact ⟨id, decodeId_ok hd, h.symm⟩

/-- Format OP, one case per command code. -/
theorem decodeCommand_ok {cmd : BitVec 4} {operands : Bytes} {i : Instr} (h : decodeCommand cmd operands = .ok i) :
    WellFormed i ∧ encode i = .command cmd operands := by
  unfold decodeCommand at h
  split at h
  case h_1 hc =>
    split at h
    · next ho =>
      injection h with h
      subst h ho
      exact ⟨rfl, command_eq_of_toNat _ hc⟩
    · cases h
  case h_2 hc =>
    split at h
    · obtain ⟨id, rfl, rfl⟩ := decodeId_map_ok h
      exact ⟨rfl, command_eq_of_toNat _ hc⟩
    · cases h
  case h_3 hc =>
    split at h
    · obtain ⟨id, rfl, rfl⟩ := decodeId_map_ok h
      exact ⟨rfl, command_eq_of_toNat _ hc⟩
    · cases h
  case h_12 => cases h
  all_goals
    next hc =>
    injection h with h
    subst h
    exact ⟨rfl, command_eq_of_toNat _ hc⟩

/-- Format FRAME: the decoder takes the frame apart at its marker, length bytes and last byte. -/
theorem decodeFrame_ok {raw : Bytes} {i : Instr} (h : decodeFrame raw = .ok i) :
    WellFormed i ∧ encode i = .logicalFrame raw := by
  unfold decodeFrame at h
  split at h
  · cases h
  next hm =>
  split at h
  · cases h
  next hl =>
  obtain ⟨x, hi, lo, fd, c, rfl⟩ := Machine.exists_frame_shape (Nat.not_lt.1 hl)
  obtain rfl : x = Machine.startMarker := by simpa using hm
  rw [Machine.frameDataOf_shape, Machine.byteAt_last_shape] at h
  injection h with h
  subst h
  exact ⟨rfl, rfl⟩

/-- An escape pair of no row of its own is well-formed as ESC_ANY. -/
theorem wf_escAny {b : Byte} (h1 : b ≠ 0x5E#8) (h2 : b ≠ 0x5D#8) (h3 : b ≠ 0x31#8) (h4 : b ≠ 0x33#8) :
    WellFormed (.escAny b) := by
  simp [WellFormed, Instr.wf, pairBytes, h1, h2, h3, h4]

/-- Formats WIRE_SYMBOL and ESCAPE_PAIR: the marker, a named pair, or any other pair. -/
theorem decodeSymbol_ok {w : Bytes} {i : Instr} (h : decodeSymbol w = .ok i) :
    WellFormed i ∧ encode i = .wireSymbol w := by
  unfold decodeSymbol at h
  split at h
  case h_1 m =>
    split at h
    · next hm =>
      injection h with h
      subst h hm
      exact ⟨rfl, rfl⟩
    · cases h
  case h_2 e b =>
    split_ifs at h with he h1 h2 h3 h4
    all_goals
      injection h with h
      subst h
      obtain rfl : e = Machine.escByte := not_not.1 he
    case neg => exact ⟨wf_escAny h1 h2 h3 h4, rfl⟩
    all_goals
      subst b
      exact ⟨rfl, rfl⟩
  case h_3 => cases h

/-- Format FRAME_TYPE: no frame data, or a type byte and a payload that fits. -/
theorem decodeFrameData_ok {dir : Direction} {fd : Bytes} {i : Instr} (h : decodeFrameData dir fd = .ok i) :
    WellFormed i ∧ encode i = .frameData dir fd := by
  cases fd with
  | nil =>
    injection h with h
    subst h
    exact ⟨rfl, rfl⟩
  | cons t p =>
    by_cases hp : payloadFits p = true
    · simp only [decodeFrameData, if_pos hp] at h
      injection h with h
      subst h
      exact ⟨wf_frameTypeRow dir t p hp, encode_frameTypeRow dir t p⟩
    · simp only [decodeFrameData, if_neg hp] at h
      cases h

/-! ### Reserved command codes -/

/-- Codes from 0xB on are no operation's (30_encoding.md R78). -/
theorem decodeCommand_reserved {cmd : BitVec 4} (operands : Bytes) (h : 0xB ≤ cmd.toNat) :
    decodeCommand cmd operands = .error (.reservedCommand cmd) := by
  unfold decodeCommand
  split
  case h_12 => rfl
  all_goals omega

/-- A presentation the decoder rejects gets no step. -/
theorem Machine.step_of_fetch_undecodable {s t : State} {p : Presentation} {e : DecodeError}
    (hf : fetch s = .run p t) (hd : decode p = .error e) : step s = .refused (.undecodable e) := by
  simp [step, hf, hd]

/-! ### The statements about decoder and encoder -/

/-- Settles O2: each constructor has its round trip. -/
theorem decodeUndoesEncode : Obligations.DecodeUndoesEncode := by
  intro i
  cases i with
  | reset => exact Laws.RoundTrip.reset
  | csrRead id => exact Laws.RoundTrip.csrRead id
  | csrWrite id v => exact Laws.RoundTrip.csrWrite id v
  | checksum fd => exact Laws.RoundTrip.checksum fd
  | escape b => exact Laws.RoundTrip.escape b
  | validate raw => exact Laws.RoundTrip.validate raw
  | deframe raw => exact Laws.RoundTrip.deframe raw
  | classify fd => exact Laws.RoundTrip.classify fd
  | encode fd => exact Laws.RoundTrip.encode fd
  | feed chunk => exact Laws.RoundTrip.feed chunk
  | unescape b => exact Laws.RoundTrip.unescape b
  | frame h l fd c => exact Laws.RoundTrip.frame h l fd c
  | startMarker => exact Laws.RoundTrip.startMarker
  | esc7E => exact Laws.RoundTrip.esc7E
  | esc7D => exact Laws.RoundTrip.esc7D
  | esc11 => exact Laws.RoundTrip.esc11
  | esc13 => exact Laws.RoundTrip.esc13
  | escAny b => exact Laws.RoundTrip.escAny b
  | localATResponse dir p => exact Laws.RoundTrip.localATResponse dir p
  | transmitStatus dir p => exact Laws.RoundTrip.transmitStatus dir p
  | routeInformation dir p => exact Laws.RoundTrip.routeInformation dir p
  | receivePacket dir p => exact Laws.RoundTrip.receivePacket dir p
  | explicitRxIndicator dir p => exact Laws.RoundTrip.explicitRxIndicator dir p
  | remoteATResponse dir p => exact Laws.RoundTrip.remoteATResponse dir p
  | localATCommand dir p => exact Laws.RoundTrip.localATCommand dir p
  | localATCommand09 dir p => exact Laws.RoundTrip.localATCommand09 dir p
  | remoteATCommand dir p => exact Laws.RoundTrip.remoteATCommand dir p
  | transmit dir p => exact Laws.RoundTrip.transmit dir p
  | explicitAddressingTransmit dir p => exact Laws.RoundTrip.explicitAddressingTransmit dir p
  | unknownType dir t p => exact Laws.RoundTrip.unknownType dir t p

/-- Settles O3: each format of presentation has its inversion. -/
theorem encodeUndoesDecode : Obligations.EncodeUndoesDecode := by
  intro p i h
  cases p with
  | command cmd operands => exact decodeCommand_ok h
  | logicalFrame raw => exact decodeFrame_ok h
  | wireSymbol w => exact decodeSymbol_ok h
  | frameData dir fd => exact decodeFrameData_ok h

/-- Settles O1: the words are closed terms, which the decoder evaluates. -/
theorem wordsOfTheTablesDecode : Obligations.WordsOfTheTablesDecode := by
  unfold Obligations.WordsOfTheTablesDecode
  decide

/-- Settles O4: the codes of the operations by their round trips, the reserved ones by the decoder's rejection. -/
theorem commandCodesAndReservedCodes : Obligations.CommandCodesAndReservedCodes := by
  refine ⟨rfl, fun id => ?read, fun id v => ?write, fun _ => rfl, fun _ => rfl, fun _ => rfl, fun _ => rfl,
    fun _ => rfl, fun _ => rfl, fun _ => rfl, fun _ => rfl, fun s cmd bs rest hc hh => ?reserved⟩
  case read =>
    rw [← BitVec.ofNat_toNat]
    exact decodeUndoesEncode (.csrRead id) rfl
  case write =>
    rw [← BitVec.ofNat_toNat]
    exact decodeUndoesEncode (.csrWrite id v) rfl
  case reserved =>
    exact Machine.step_of_fetch_undecodable (Machine.fetch_present_one hh) (decodeCommand_reserved bs hc)

end Sys2Proof

namespace Sys2Proof.Machine

/-! ### Candidates against the default keep window -/

theorem bufInv_length_le {buf : Bytes} (h : BufInv keepWindow buf) : buf.length ≤ 3 := by
  rcases bufInv_cases h with rfl | ⟨-, -, -, hk⟩
  · simp
  · exact hk.2

/-- A candidate of fewer than four bytes is too short for a frame, in either mode. -/
theorem candidateEvent_short (esc : Bool) {raw : Bytes} (h : raw.length < 4) :
    candidateEvent esc raw = .dropped .tooShort raw := by
  simp [candidateEvent, deframe_short h]

/-- A tail of one to three bytes is kept (43_reassembler.md R147). -/
theorem tailOutcome_of_le {esc : Bool} {raw : Bytes} (h1 : 1 ≤ raw.length) (h3 : raw.length ≤ 3) :
    tailOutcome keepWindow esc raw = ([], raw) := by
  have hkeep : keepWindow.keeps raw.length := ⟨h1, h3⟩
  simp only [tailOutcome, deframe_short (Nat.lt_succ_of_le h3), if_pos hkeep]

/-- A tail longer than three bytes is judged (43_reassembler.md R146, R148). -/
theorem tailOutcome_of_lt {esc : Bool} {raw : Bytes} (h : 3 < raw.length) :
    tailOutcome keepWindow esc raw = ([candidateEvent esc raw], []) := by
  rcases tailOutcome_cases keepWindow esc raw with ht | ⟨-, hk, -⟩
  · exact ht
  · exact absurd hk.2 (Nat.not_le.2 h)

theorem tailOutcome_marker (esc : Bool) : tailOutcome keepWindow esc [startMarker] = ([], [startMarker]) :=
  tailOutcome_of_le (Nat.le_refl 1) (by decide)

/-! ### A marker at either end of what arrives -/

/-- A marker first: what was kept is dropped as too short, and the run is the tail. -/
theorem reassemble_marker_drops (esc : Bool) {buf g : Bytes} (hb : BufInv keepWindow buf) (hg : startMarker ∉ g) :
    reassemble keepWindow esc buf (startMarker :: g) =
      ((if buf = [] then [] else [.dropped .tooShort buf]) ++ (tailOutcome keepWindow esc (startMarker :: g)).1,
        (tailOutcome keepWindow esc (startMarker :: g)).2) := by
  rw [reassemble_marker keepWindow esc hb hg, candidateEvent_short esc (Nat.lt_succ_of_le (bufInv_length_le hb))]

/-- A marker last: what stood before it is noise or a terminated candidate, and the marker opens the next. -/
theorem reassemble_then_marker (esc : Bool) {buf g : Bytes} (hb : BufInv keepWindow buf) (hg : startMarker ∉ g) :
    reassemble keepWindow esc buf (g ++ [startMarker]) =
      (if buf = [] then noiseEvents g else [candidateEvent esc (buf ++ g)], [startMarker]) := by
  rcases bufInv_cases hb with rfl | ⟨k, rfl, hk, -⟩
  · rw [reassemble_eq keepWindow esc (s := g) (segs := [[]]) (by simp) hg (by simp), segmentsPass_one,
      tailOutcome_marker]
    simp
  · rw [reassemble_eq keepWindow esc (s := []) (segs := [k ++ g, []]) (by simp) (by simp) (by simp [hk, hg]),
      segmentsPass_cons_cons, segmentsPass_one, tailOutcome_marker]
    simp [noiseEvents]

/-- The marker alone drops what was kept and waits. -/
theorem reassemble_startMarker (esc : Bool) {buf : Bytes} (hb : BufInv keepWindow buf) :
    reassemble keepWindow esc buf [startMarker] =
      (if buf = [] then [] else [.dropped .tooShort buf], [startMarker]) := by
  rw [reassemble_marker_drops esc hb List.not_mem_nil, tailOutcome_marker, List.append_nil]

/-- A kept tail that is dropped counts once, as too short. -/
theorem tally_keptDropped (name : CounterName) (buf : Bytes) :
    tally name (if buf = [] then [] else [.dropped .tooShort buf]) =
      if name = .nShort ∧ buf ≠ [] then 1 else 0 := by
  by_cases hb : buf = []
  · rw [if_pos hb, if_neg (fun h => h.2 hb)]
    cases name <;> rfl
  · simp only [ne_eq, hb, not_false_eq_true, and_true]
    cases name <;> rfl

/-! ### The wire rows are FEEDs (log entry 10) -/

theorem exec_startMarker (s : State) : exec .startMarker s = exec (.feed [startMarker]) s := rfl

theorem exec_frame (h l c : Byte) (fd : Bytes) (s : State) :
    exec (.frame h l fd c) s = exec (.feed (onWire s.ctrl.esc (startMarker :: h :: l :: (fd ++ [c])))) s := rfl

/-- An escape-pair row is the FEED of its pair. -/
theorem exec_escapePair {i : Instr} {b : Byte} (s : State) (h : (i, b) ∈ pairRows ∨ i = .escAny b) :
    exec i s = exec (.feed [escByte, b]) s := by
  rcases h with h | rfl
  · simp only [pairRows, List.mem_cons, Prod.mk.injEq, List.not_mem_nil, or_false] at h
    rcases h with ⟨rfl, rfl⟩ | ⟨rfl, rfl⟩ | ⟨rfl, rfl⟩ | ⟨rfl, rfl⟩ <;> rfl
  · rfl

/-! ### An escape pair as it arrives -/

theorem startMarker_not_mem_pair {b : Byte} (h : b ≠ startMarker) : startMarker ∉ [escByte, b] := by
  rw [List.mem_pair, not_or]
  exact ⟨by decide, Ne.symm h⟩

/-- After a kept tail a pair extends the candidate: it is kept with a lone marker, else judged. -/
theorem reassemble_pair_extends (esc : Bool) {buf : Bytes} {b : Byte} (hb : BufInv keepWindow buf) (hne : buf ≠ [])
    (h : b ≠ startMarker) :
    reassemble keepWindow esc buf [escByte, b] = tailOutcome keepWindow esc (buf ++ [escByte, b]) := by
  rcases bufInv_cases hb with rfl | ⟨k, rfl, hk, -⟩
  · exact absurd rfl hne
  · exact reassemble_extend keepWindow esc hk (startMarker_not_mem_pair h)

/-! ### The frame on the wire -/

theorem length_le_onWire (esc : Bool) (raw : Bytes) : raw.length ≤ (onWire esc raw).length := by
  simpa [unwire_onWire] using unwire_length_le esc (onWire esc raw)

/-- The wire form of bytes behind a marker holds no further marker where escaping is on, or where they hold none. -/
theorem onWire_cons {esc : Bool} {rest : Bytes} (h : esc = true ∨ startMarker ∉ rest) :
    ∃ g, onWire esc (startMarker :: rest) = startMarker :: g ∧ startMarker ∉ g := by
  cases esc with
  | true => exact ⟨escTail rest, rfl, not_mem_escTail (.inl rfl) rest⟩
  | false => exact ⟨rest, rfl, h.resolve_left Bool.false_ne_true⟩

/-- A candidate is judged by VALIDATE on what it stands for: here a frame taken from its wire form. -/
theorem candidateEvent_onWire (esc : Bool) (x h l c : Byte) (fd : Bytes) :
    candidateEvent esc (onWire esc (x :: h :: l :: (fd ++ [c]))) =
      if (validate (x :: h :: l :: (fd ++ [c]))).1 then deliverEvent fd
      else .dropped (validate (x :: h :: l :: (fd ++ [c]))).2 (onWire esc (x :: h :: l :: (fd ++ [c]))) := by
  rw [candidateEvent, deframe_eq, unwire_onWire, frameDataOf_shape]
  split_ifs <;> rfl

/-- A frame whose wire form has one marker, fed to a buffer the invariant allows: what was kept is dropped as too short,
and the frame is judged. -/
theorem reassemble_frame {esc : Bool} {buf : Bytes} (h l c : Byte) (fd : Bytes) (hb : BufInv keepWindow buf)
    (hm : esc = true ∨ startMarker ∉ h :: l :: (fd ++ [c])) :
    reassemble keepWindow esc buf (onWire esc (startMarker :: h :: l :: (fd ++ [c]))) =
      ((if buf = [] then [] else [.dropped .tooShort buf]) ++
        [candidateEvent esc (onWire esc (startMarker :: h :: l :: (fd ++ [c])))], []) := by
  have hlen : 3 < (onWire esc (startMarker :: h :: l :: (fd ++ [c]))).length :=
    Nat.lt_of_lt_of_le (by simp) (length_le_onWire esc _)
  obtain ⟨g, hw, hg⟩ := onWire_cons hm
  rw [hw] at hlen ⊢
  rw [reassemble_marker_drops esc hb hg, tailOutcome_of_lt hlen]

/-! ### The statements about what arrives -/

/-- Settles O45: the marker drops what was kept and is itself a tail that is kept. -/
theorem startMarkerOpensACandidate : Obligations.StartMarkerOpensACandidate := by
  intro s
  refine ⟨exec_startMarker s, fun hb => ?_⟩
  have hpass := reassemble_startMarker s.ctrl.esc hb
  have hcount (name : CounterName) : (s.fed keepWindow [startMarker]).counter name =
      if name = .nShort ∧ s.buf ≠ [] then s.counter name + 1 else s.counter name := by
    rw [State.fed_counter, hpass, tally_keptDropped]
    split_ifs
    · rfl
    · exact Counter.add_zero _
  refine ⟨s.fed keepWindow [startMarker], exec_feed [startMarker] s, ?keep, ?result, ?events, ?short,
    hcount .nFrame, hcount .nUnknown, hcount .nLen, hcount .nCk, hcount .nNoise, State.fed_received _ _ _,
    State.fed_ctrl _ _ _, State.fed_transmitted _ _ _, State.fed_encoded _ _ _, State.fed_host _ _ _⟩
  case keep =>
    rw [State.fed_buf, hpass]
    rfl
  case result => rw [State.fed_result, hpass]
  case events => rw [State.fed_events, hpass]
  case short =>
    refine (hcount .nShort).trans ?_
    by_cases hs : s.buf = [] <;> simp [hs, State.counter]

/-- Settles O46: a pair is noise, extends what was kept, or is cut by its own marker. -/
theorem escapePairsArrive : Obligations.EscapePairsArrive := by
  intro i b s hi hb
  have hx : exec i s = exec (.feed [0x7D#8, b]) s := exec_escapePair s hi
  refine ⟨hx, s.fed keepWindow [escByte, b], _, hx, State.fed_result _ _ _, State.fed_events _ _ _,
    State.fed_received _ _ _, State.fed_ctrl _ _ _, State.fed_transmitted _ _ _, State.fed_encoded _ _ _,
    State.fed_host _ _ _, fun h hs => ?noise, fun h hs => ?kept, fun h hs => ?judged, fun h => ?cut⟩
  all_goals rw [State.fed_buf, State.fed_result]
  case noise =>
    rw [hs, reassemble_noise _ _ (startMarker_not_mem_pair h)]
    exact ⟨rfl, rfl⟩
  case kept =>
    rw [reassemble_pair_extends _ hb (by simp [hs]) h, hs, tailOutcome_of_le (by simp) (by simp)]
    exact ⟨rfl, rfl⟩
  case judged =>
    have hne : s.buf ≠ [] := List.ne_nil_of_length_pos (by omega)
    rw [reassemble_pair_extends _ hb hne h, tailOutcome_of_lt (by simp; omega)]
    exact ⟨rfl, rfl⟩
  case cut =>
    have hpass := reassemble_then_marker s.ctrl.esc hb (g := [escByte]) (by decide)
    obtain rfl : b = startMarker := h
    rw [List.singleton_append] at hpass
    rw [hpass]
    refine ⟨rfl, ?_⟩
    split_ifs <;> rfl

/-- Settles O47: after escaped bytes the scan is between pairs, so it reads the next pair whole. -/
theorem escapePairsStandForOneByte : Obligations.EscapePairsStandForOneByte := by
  refine ⟨fun x r b0 b => ?_, by decide, fun b0 b hb => ?_⟩
  · rw [unescape_escape_append]
    rfl
  · simp [escape, escTail, esc1, hb, escByte, xorMask]

/-- Settles O48: a frame with one marker on the wire is judged as one candidate, by VALIDATE on its logical form. -/
theorem frameRowIsDeliveredOrDropped : Obligations.FrameRowIsDeliveredOrDropped := by
  intro h l c fd s
  refine ⟨exec_frame h l c fd s, fun hb hm => ?_⟩
  have hpass := reassemble_frame h l c fd hb hm
  refine ⟨s.fed keepWindow _, candidateEvent s.ctrl.esc (onWire s.ctrl.esc (startMarker :: h :: l :: (fd ++ [c]))),
    exec_frame h l c fd s, ?keep, ?result, ?events, fun hv => ?valid, fun r hv => ?invalid,
    State.fed_received _ _ _, State.fed_ctrl _ _ _, State.fed_transmitted _ _ _, State.fed_encoded _ _ _,
    State.fed_host _ _ _⟩
  case keep => rw [State.fed_buf, hpass]
  case result => rw [State.fed_result, hpass]
  case events => rw [State.fed_events, hpass]
  case valid =>
    rw [candidateEvent_onWire]
    exact if_pos (congrArg Prod.fst hv)
  case invalid =>
    rw [candidateEvent_onWire]
    have hv' : validate (startMarker :: h :: l :: (fd ++ [c])) = (false, r) := hv
    rw [hv']
    rfl

end Sys2Proof.Machine
end

section
/-! SUPPORT. The proofs of the statements about the Frame Codec (40_codec.md): the checksum, escaping and unescaping,
VALIDATE and what a changed, cut or extended frame makes of its verdict. -/

namespace Sys2Proof.Machine

/-! ### The codec operations through exec -/

theorem exec_checksum (fd : Bytes) (s : State) :
    exec (.checksum fd) s = .next (s.returning (.byte (checksum fd))) := rfl

theorem exec_escape (b : Bytes) (s : State) : exec (.escape b) s = .next (s.returning (.bytes (escape b))) := rfl

theorem exec_unescape (b : Bytes) (s : State) : exec (.unescape b) s = .next (s.returning (.bytes (unescape b))) := rfl

theorem exec_validate (raw : Bytes) (s : State) :
    exec (.validate raw) s = .next (s.returning (.verdict (validate raw).1 (validate raw).2)) := rfl

/-- VALIDATE returns its verdict and writes nothing else. -/
theorem exec_validate_of_eq {raw : Bytes} {ok : Bool} {reason : Reason} (s : State) (h : validate raw = (ok, reason)) :
    exec (.validate raw) s = .next (s.returning (.verdict ok reason)) := by
  rw [exec_validate, h]

/-! ### The checksum -/

theorem sum8_append (s t : Bytes) : sum8 (s ++ t) = sum8 s + sum8 t := by
  rw [sum8, byteSum_append, BitVec.ofNat_add]
  rfl

theorem sum8_cons (b : Byte) (s : Bytes) : sum8 (b :: s) = b + sum8 s := by
  rw [sum8, byteSum, BitVec.ofNat_add, BitVec.ofNat_toNat, BitVec.setWidth_eq]
  rfl

/-- An 8-bit accumulator that discards carries holds the sum modulo 256 (40_codec.md R90 (1)). -/
theorem foldl_add_eq_sum8 (acc : Byte) (s : Bytes) : s.foldl (fun acc b => acc + b) acc = acc + sum8 s := by
  induction s generalizing acc with
  | nil => exact (BitVec.add_zero acc).symm
  | cons b s ih => rw [List.foldl_cons, ih, sum8_cons, BitVec.add_assoc]

theorem checksum_append (s t : Bytes) : checksum (s ++ t) = checksum s - sum8 t := by
  rw [checksum, checksum, sum8_append, sub_add_eq_sub_sub]

/-- One byte changed changes the checksum: two bytes are never congruent modulo 256 (40_codec.md R93 (c)). -/
theorem checksum_ne_of_byte_ne (a b : Bytes) {x y : Byte} (h : x ≠ y) :
    checksum (a ++ x :: b) ≠ checksum (a ++ y :: b) := by
  intro he
  have hsum := congrArg BitVec.toNat he
  simp only [checksum_toNat, byteSum_append, byteSum] at hsum
  have hx := x.isLt
  have hy := y.isLt
  exact h (BitVec.eq_of_toNat_eq (by omega))

/-! ### Escaping -/

/-- ESCAPE copies index 0 and escapes the rest (40_codec.md R95). -/
theorem tail_escape (b : Bytes) : (escape b).tail = escTail b.tail := by
  cases b <;> rfl

theorem escTail_eq_flatMap (s : Bytes) : escTail s = s.flatMap esc1 := by
  induction s with
  | nil => rfl
  | cons b s ih => rw [escTail, ih, List.flatMap_cons]

/-- `Esc1` with ESCSET written out (40_codec.md R94). -/
theorem esc1_eq (b : Byte) :
    esc1 b = if b = 0x7E#8 ∨ b = 0x7D#8 ∨ b = 0x11#8 ∨ b = 0x13#8 then [0x7D#8, b ^^^ 0x20#8] else [b] :=
  if_congr (mem_escSet b) rfl rfl

/-- Each byte becomes one byte or two (40_codec.md R96 (a)). -/
theorem escTail_length_bounds (s : Bytes) :
    s.length ≤ (escTail s).length ∧ (escTail s).length ≤ 2 * s.length := by
  induction s with
  | nil => exact ⟨Nat.le_refl 0, Nat.le_refl 0⟩
  | cons b s ih =>
    rw [escTail, List.length_append, List.length_cons]
    rcases esc1_cases b with ⟨-, h⟩ | ⟨-, h⟩ <;> simp only [h, List.length_cons, List.length_nil] <;> omega

/-- The second byte of the pair of a byte in ESCSET is one of the four of 30_encoding.md R65. -/
theorem xor_mask_mem_pairBytes {b : Byte} (h : b ∈ escSet) : b ^^^ xorMask ∈ pairBytes := by
  rcases (mem_escSet b).1 h with rfl | rfl | rfl | rfl <;> decide

theorem escByte_not_mem_pairBytes : escByte ∉ pairBytes := by decide

/-- In escaped bytes an introducer is followed by the second byte of a pair (40_codec.md R96 (b)). -/
theorem escByte_in_escTail {s pre post : Bytes} (h : escTail s = pre ++ escByte :: post) :
    ∃ y post', post = y :: post' ∧ y ∈ pairBytes := by
  induction s generalizing pre with
  | nil => exact absurd h (by simp [escTail])
  | cons b s ih =>
    rw [escTail] at h
    rcases esc1_cases b with ⟨hb, he⟩ | ⟨hb, he⟩ <;> rw [he] at h
    · have hy := xor_mask_mem_pairBytes hb
      match pre with
      | [] => exact ⟨_, _, (List.cons.inj h).2.symm, hy⟩
      | [p] =>
        have hesc : b ^^^ xorMask = escByte := (List.cons.inj (List.cons.inj h).2).1
        exact absurd (hesc ▸ hy) escByte_not_mem_pairBytes
      | p :: q :: pre => exact ih (List.cons.inj (List.cons.inj h).2).2
    · match pre with
      | [] =>
        have hesc : b = escByte := (List.cons.inj h).1
        exact absurd (hesc ▸ (by decide : escByte ∈ escSet)) hb
      | p :: pre => exact ih (List.cons.inj h).2

/-! ### Unescaping -/

/-- An introducer costs its own byte, so where there is one the result is shorter (40_codec.md R101 (e)). -/
theorem unescScan_length_lt {s : Bytes} (h : escByte ∈ s) : (unescScan false s).length < s.length := by
  induction s with
  | nil => exact absurd h List.not_mem_nil
  | cons b s ih =>
    rw [unescScan, List.length_cons]
    by_cases hb : b = escByte
    · rw [if_pos hb]
      exact Nat.lt_succ_of_le (unescScan_length_le true s)
    · rw [if_neg hb, List.length_cons]
      exact Nat.succ_lt_succ (ih (List.mem_of_ne_of_mem (Ne.symm hb) h))

theorem unescape_of_not_mem {b : Bytes} (h : escByte ∉ b.tail) : unescape b = b := by
  cases b with
  | nil => rfl
  | cons b0 rest => exact congrArg (b0 :: ·) (unescScan_of_not_mem h)

theorem unescape_length_eq_iff (b : Bytes) : (unescape b).length = b.length ↔ escByte ∉ b.tail := by
  refine ⟨fun hlen hmem => ?_, fun h => by rw [unescape_of_not_mem h]⟩
  cases b with
  | nil => exact absurd hmem List.not_mem_nil
  | cons b0 rest => exact absurd (Nat.succ.inj hlen) (unescScan_length_lt hmem).ne

/-! ### The verdict of VALIDATE -/

/-- VALIDATE answers "too short" for fewer than four bytes and for nothing else. -/
theorem validate_tooShort_iff (raw : Bytes) : validate raw = (false, .tooShort) ↔ raw.length < 4 := by
  refine ⟨fun h => ?_, validate_short⟩
  by_contra hlen
  obtain ⟨x, hi, lo, fd, c, rfl⟩ := exists_frame_shape (Nat.le_of_not_lt hlen)
  rw [validate_shape] at h
  split_ifs at h <;> simp at h

/-- A frame of four bytes or more is valid when its length field and its last byte both fit (40_codec.md R102). -/
theorem validate_shape_valid_iff (x hi lo c : Byte) (fd : Bytes) :
    validate (x :: hi :: lo :: (fd ++ [c])) = (true, .none) ↔ be16 hi lo = fd.length ∧ checksum fd = c := by
  rw [validate_shape]
  by_cases hlen : be16 hi lo = fd.length
  · by_cases hck : checksum fd = c <;> simp [hlen, hck]
  · simp [hlen]

theorem validate_checksumMismatch {hi lo c : Byte} {fd : Bytes} (x : Byte) (hlen : be16 hi lo = fd.length)
    (hck : checksum fd ≠ c) : validate (x :: hi :: lo :: (fd ++ [c])) = (false, .checksumMismatch) := by
  rw [validate_shape, if_neg (not_not.2 hlen), if_pos hck]

/-- A length field that does not count the bytes between it and the last one is a length failure, whatever they are. -/
theorem validate_lengthMismatch {hi lo : Byte} {rest : Bytes} (x : Byte) (hr : rest ≠ [])
    (hlen : be16 hi lo + 1 ≠ rest.length) : validate (x :: hi :: lo :: rest) = (false, .lengthMismatch) := by
  obtain ⟨fd, c, rfl⟩ := (List.eq_nil_or_concat' rest).resolve_left hr
  rw [List.length_append, List.length_singleton] at hlen
  rw [validate_shape, if_pos (fun h => hlen (congrArg (· + 1) h))]

/-- A valid frame has the shape of one, with a length field and a last byte that fit. -/
theorem exists_of_validate {raw : Bytes} (h : validate raw = (true, .none)) :
    ∃ x hi lo fd c, raw = x :: hi :: lo :: (fd ++ [c]) ∧ be16 hi lo = fd.length ∧ checksum fd = c :=
  (validate_true_iff raw).1 (congrArg Prod.fst h)

theorem four_le_length_of_validate {raw : Bytes} (h : validate raw = (true, .none)) : 4 ≤ raw.length := by
  obtain ⟨x, hi, lo, fd, c, rfl, -, -⟩ := exists_of_validate h
  simp

/-- The byte at index 0 is not examined (40_codec.md R103). -/
theorem validate_cons_congr {r : Bytes} (x y : Byte) (h : 3 ≤ r.length) : validate (x :: r) = validate (y :: r) := by
  obtain ⟨x', hi, lo, fd, c, hr⟩ := exists_frame_shape (raw := x :: r) (Nat.succ_le_succ h)
  obtain ⟨-, rfl⟩ := List.cons.inj hr
  rw [validate_shape, validate_shape]

/-- A valid frame with another length field fails by it: the field is read one to one (40_codec.md R104 (b)). -/
theorem validate_length_changed {x hi lo hi' lo' : Byte} {r : Bytes}
    (h : validate (x :: hi :: lo :: r) = (true, .none)) (hne : ¬ (hi = hi' ∧ lo = lo')) :
    validate (x :: hi' :: lo' :: r) = (false, .lengthMismatch) := by
  obtain ⟨x0, hi0, lo0, fd, c, he, hlen, -⟩ := exists_of_validate h
  obtain ⟨rfl, rfl, rfl, rfl⟩ : x = x0 ∧ hi = hi0 ∧ lo = lo0 ∧ r = fd ++ [c] := by simpa using he
  rw [validate_shape, if_pos (fun hlen' => hne (be16_inj (hlen.trans hlen'.symm)))]

/-- A valid frame with one byte behind the length field changed, the last one or another, fails by checksum
(40_codec.md R104 (b)). -/
theorem validate_byte_changed {x hi lo u v : Byte} {a b : Bytes}
    (h : validate (x :: hi :: lo :: (a ++ u :: b)) = (true, .none)) (hne : u ≠ v) :
    validate (x :: hi :: lo :: (a ++ v :: b)) = (false, .checksumMismatch) := by
  rcases List.eq_nil_or_concat' b with rfl | ⟨b, c, rfl⟩
  · obtain ⟨hlen, rfl⟩ := (validate_shape_valid_iff x hi lo u a).1 h
    exact validate_checksumMismatch x hlen hne
  · rw [← List.cons_append (a := u), ← List.append_assoc] at h
    rw [← List.cons_append (a := v), ← List.append_assoc]
    obtain ⟨hlen, rfl⟩ := (validate_shape_valid_iff x hi lo c (a ++ u :: b)).1 h
    refine validate_checksumMismatch x ?_ (checksum_ne_of_byte_ne a b hne.symm)
    rw [hlen, List.length_append, List.length_append]
    rfl

/-! ### The statements about the codec -/

/-- Settles O15: the result is the model's `checksum`, whose number is exact. -/
theorem checksumIsFFMinusTheSum : Obligations.ChecksumIsFFMinusTheSum := by
  intro fd s
  refine ⟨checksum fd, exec_checksum fd s, ?_⟩
  rw [checksum_toNat, byteSum_eq_sum]

/-- Settles O16: both spellings are the one number from 0 to 255 congruent to 255 minus the sum. -/
theorem checksumSpellingsAgree : Obligations.ChecksumSpellingsAgree := by
  refine fun fd => ⟨?_, ?_⟩
  · rw [checksum_toNat, ← byteSum_eq_sum]
    omega
  · rw [foldl_add_eq_sum8, BitVec.zero_add]
    rfl

/-- Settles O17: sums modulo 256 add up, so the order and the grouping of the bytes do not matter and one byte does. -/
theorem checksumLaws : Obligations.ChecksumLaws := by
  refine ⟨fun fd => ?_, checksum_append, fun a b _ _ h => checksum_ne_of_byte_ne a b h, by decide, by decide⟩
  rw [sum8_toNat, checksum_toNat]
  omega

/-- Settles O18: `escTail` is the concatenation of `Esc1` of every byte. -/
theorem escapeReplacesReservedBytesAfterIndexZero : Obligations.EscapeReplacesReservedBytesAfterIndexZero := by
  refine fun s => ⟨exec_escape [] s, fun b0 rest => ?_⟩
  rw [exec_escape, escape, escTail_eq_flatMap, funext esc1_eq]
  rfl

/-- Settles O19: byte by byte behind index 0; injective because UNESCAPE undoes it. -/
theorem escapeLaws : Obligations.EscapeLaws := by
  refine ⟨fun b hb => ?length, fun b => ?reserved, fun b pre post h => ?pairs,
    fun a b h => ?injective, by decide⟩
  case length =>
    obtain ⟨b0, rest, rfl⟩ := List.exists_cons_of_ne_nil hb
    have hbounds := escTail_length_bounds rest
    simp only [escape, List.length_cons]
    omega
  case reserved =>
    rw [tail_escape]
    exact ⟨not_mem_escTail (.inl rfl) _, not_mem_escTail (.inr (.inl rfl)) _, not_mem_escTail (.inr (.inr rfl)) _⟩
  case pairs =>
    rw [tail_escape] at h
    obtain ⟨y, post', hpost, hy⟩ := escByte_in_escTail h
    exact ⟨y, post', hpost, by simpa [pairBytes] using hy⟩
  case injective => exact Function.LeftInverse.injective unescape_escape h

/-- Settles O21: UNESCAPE undoes ESCAPE, copies what holds no introducer, and drops a byte for each introducer. -/
theorem unescapeLaws : Obligations.UnescapeLaws := by
  refine ⟨unescape_escape, fun b h => unescape_of_not_mem h, by decide, by decide, fun w => ?image, by decide,
    fun b => ⟨unescape_length_le b, unescape_length_eq_iff b⟩⟩
  case image =>
    refine ⟨fun h => ⟨unescape w, h⟩, ?_⟩
    rintro ⟨x, rfl⟩
    rw [unescape_escape]

/-- Settles O22: the three checks on a frame's shape, the checksum compared as the byte that brings the sum to 0xFF. -/
theorem validateVerdict : Obligations.ValidateVerdict := by
  refine fun s => ⟨fun raw h => exec_validate_of_eq s (validate_short h), fun x h l c fd => ?_⟩
  rw [← byteSum_eq_sum]
  refine ⟨fun hlen => exec_validate_of_eq s ?_, fun hlen hck => exec_validate_of_eq s ?_,
    fun hlen hck => exec_validate_of_eq s ?_⟩
  · exact (validate_shape x h l c fd).trans (if_pos hlen)
  · exact validate_checksumMismatch x hlen (mt (checksum_eq_iff fd c).1 hck)
  · exact (validate_shape_valid_iff x h l c fd).2 ⟨hlen, (checksum_eq_iff fd c).2 hck⟩

/-- Settles O23: the framed bytes are the logical frame of the data. -/
theorem framedDataValidates : Obligations.FramedDataValidates :=
  fun fd s hfd => ⟨checksum fd, s.returning (.byte (checksum fd)), exec_checksum fd s, rfl,
    exec_validate_of_eq _ (validate_rawFrame hfd)⟩

/-- Settles O24: by the index of the changed byte, that is by the length of what stands before it. -/
theorem singleByteMutations : Obligations.SingleByteMutations := by
  intro a b x y h hxy
  have h4 := four_le_length_of_validate h
  match a, b with
  | [], b =>
    refine ⟨nofun, by simp, fun _ => ?_⟩
    exact (validate_cons_congr y x (Nat.le_of_succ_le_succ h4)).trans h
  | [x0], [] => exact absurd h4 (by simp)
  | [x0], lo :: r => exact ⟨by simp, fun _ => validate_length_changed h (fun he => hxy he.1), nofun⟩
  | [x0, hi], r => exact ⟨by simp, fun _ => validate_length_changed h (fun he => hxy he.2), nofun⟩
  | x0 :: hi :: lo :: a, b => exact ⟨fun _ => validate_byte_changed h hxy, by simp, nofun⟩

/-- Settles O25: a frame's length field counts its own bytes, so no other length fits it. -/
theorem cutAndExtendedFramesFailByLength : Obligations.CutAndExtendedFramesFailByLength := by
  refine ⟨fun p q h hq => ?cut, fun p q h hq => ?extended⟩
  case cut =>
    split_ifs with hp
    · exact validate_short hp
    · exact (validate_of_append (congrArg Prod.fst h) hq).resolve_left (mt (validate_tooShort_iff p).1 hp)
  case extended =>
    obtain ⟨x, hi, lo, fd, c, rfl, hlen, -⟩ := exists_of_validate h
    have hq' := List.length_pos_iff.2 hq
    refine validate_lengthMismatch (rest := fd ++ [c] ++ q) x (by simp) ?_
    rw [List.length_append, List.length_append, List.length_singleton]
    omega

/-- Settles O20: the function is the scan from the state outside a pair. -/
theorem unescapeReadsPairs : Obligations.UnescapeReadsPairs :=
  ⟨unescScan false, ⟨rfl, rfl, fun _ _ => rfl, fun _ _ hy => if_neg hy⟩,
    fun s => ⟨exec_unescape [] s, fun b0 rest => exec_unescape (b0 :: rest) s⟩⟩

end Sys2Proof.Machine
end

section
/-! SUPPORT. The proofs of the statements about the encoder (41_encoder.md): what ENCODE returns and refuses, what DEFRAME
and FEED make of what it returned. -/

namespace Sys2Proof.Machine

/-! ### ENCODE and DEFRAME through exec -/

theorem exec_deframe (raw : Bytes) (s : State) :
    exec (.deframe raw) s = .next (s.returning (.deframed (deframe s.ctrl.esc raw))) := rfl

theorem encodeFrame_of_length (esc : Bool) {fd : Bytes} (h1 : 1 ≤ fd.length) (h2 : fd.length ≤ lenMax) :
    encodeFrame esc fd = .ok (onWire esc (rawFrame fd)) :=
  encodeFrame_ok.2 ⟨h1, h2, rfl⟩

/-- ENCODE refuses empty frame data (41_encoder.md R111). -/
theorem encodeFrame_nil (esc : Bool) : encodeFrame esc [] = .refuse .emptyFrameData := rfl

/-- ENCODE refuses what the length field cannot count (41_encoder.md R112). -/
theorem encodeFrame_overflow (esc : Bool) {fd : Bytes} (h : lenMax < fd.length) :
    encodeFrame esc fd = .refuse .lengthOverflow := by
  rw [encodeFrame, if_neg (Nat.ne_zero_of_lt h), if_pos h]

/-- ENCODE's bytes go to the host, and nothing else changes (20_memory.md R47). -/
theorem exec_encode_of_ok {s : State} {fd w : Bytes} (h : encodeFrame s.ctrl.esc fd = .ok w) :
    exec (.encode fd) s = .next { s with result := .encoded (.ok w), encoded := s.encoded ++ [w] } := by
  rw [exec_encode, State.sent, h]
  rfl

/-- A refusal of ENCODE is reported, and nothing else changes. -/
theorem exec_encode_of_refuse {s : State} {fd : Bytes} {why : EncodeRefusal}
    (h : encodeFrame s.ctrl.esc fd = .refuse why) :
    exec (.encode fd) s = .next { s with result := .encoded (.refuse why) } := by
  rw [exec_encode, State.sent, h]
  simp only [Encoded.wires, List.append_nil]

/-! ### What ENCODE returned -/

/-- DEFRAME undoes ENCODE under the same mode (41_encoder.md R114 (b)). -/
theorem deframe_of_encodeFrame {esc : Bool} {fd w : Bytes} (h : encodeFrame esc fd = .ok w) :
    deframe esc w = .valid fd := by
  obtain ⟨-, hlen, rfl⟩ := encodeFrame_ok.1 h
  exact deframe_onWire hlen

/-- Behind the marker the wire form holds a further marker exactly where the mode is plain and the bytes hold one. -/
theorem not_mem_tail_onWire_iff (esc : Bool) (rest : Bytes) :
    startMarker ∉ (onWire esc (startMarker :: rest)).tail ↔ esc = true ∨ startMarker ∉ rest := by
  cases esc with
  | true => exact ⟨fun _ => .inl rfl, fun _ => not_mem_escTail (.inl rfl) rest⟩
  | false => exact ⟨.inr, fun h => h.resolve_left Bool.false_ne_true⟩

/-! ### What FEED makes of it -/

/-- Only a candidate is the run of bytes of a delivered frame. -/
theorem isCandidate_of_explains_deliver {esc : Bool} {piece fd : Bytes} (h : Explains esc piece (deliverEvent fd)) :
    IsCandidate piece := by
  unfold deliverEvent at h
  split at h <;> exact h.1

/-- Where one delivery is all that a pass over an empty buffer gives, the whole chunk is the candidate it reports:
nothing is lost (43_reassembler.md R161). -/
theorem isCandidate_of_reassemble_deliver {w : Window} {esc : Bool} {chunk fd : Bytes}
    (h : reassemble w esc [] chunk = ([deliverEvent fd], [])) : IsCandidate chunk := by
  obtain ⟨-, pieces, hpieces, hexplains⟩ := reassemble_spec w esc [] chunk
  rw [h] at hpieces hexplains
  obtain ⟨piece, rest, hpiece, hrest, rfl⟩ := List.forall₂_cons_right_iff.1 hexplains
  obtain rfl := List.forall₂_nil_right_iff.1 hrest
  obtain rfl : chunk = piece := by simpa using hpieces
  exact isCandidate_of_explains_deliver hpiece

/-- A frame ENCODE made, fed to an empty buffer, gives its own event and leaves nothing exactly where it holds no marker
after index 0. -/
theorem reassemble_encoded_iff (w : Window) {esc : Bool} {fd f : Bytes} (h : encodeFrame esc fd = .ok f) :
    reassemble w esc [] f = ([deliverEvent fd], []) ↔ startMarker ∉ f.tail := by
  refine ⟨fun hpass => (isCandidate_of_reassemble_deliver hpass).2, fun hm => ?_⟩
  have hf : WireFrame esc fd f := ⟨h, hm⟩
  obtain ⟨g, rfl, hg, -⟩ := wireFrame_cons hf
  rw [reassemble_marker w esc (.inl rfl) hg, tailOutcome_wireFrame w hf]
  rfl

/-! ### The statements about the encoder -/

/-- Settles O26: in both modes the result is the wire form of the logical frame. -/
theorem encodeFramesAndEscapes : Obligations.EncodeFramesAndEscapes := by
  intro fd s h1 h2
  refine ⟨checksum fd, onWire s.ctrl.esc (rawFrame fd), exec_encode_of_ok (encodeFrame_of_length _ h1 h2), ?_, rfl⟩
  rw [checksum_toNat, byteSum_eq_sum]

/-- Settles O27: both refusals come before any bytes are made. -/
theorem encodeRefusals : Obligations.EncodeRefusals := by
  refine fun fd s => ⟨?_, fun h => exec_encode_of_refuse (encodeFrame_overflow _ h)⟩
  rintro rfl
  exact exec_encode_of_refuse (encodeFrame_nil _)

/-- Settles O28: ENCODE leaves the mode, so DEFRAME undoes it in the next state. -/
theorem deframeUndoesEncode : Obligations.DeframeUndoesEncode := by
  intro fd s h1 h2
  have henc := encodeFrame_of_length s.ctrl.esc h1 h2
  refine ⟨_, _, exec_encode_of_ok henc, rfl, ?_⟩
  rw [exec_deframe, deframe_of_encodeFrame henc]
  rfl

/-- Settles O29: lengths and markers by the wire form; injective because DEFRAME undoes ENCODE. -/
theorem encodeLaws : Obligations.EncodeLaws := by
  refine ⟨fun fd w h => ?plain, fun fd w h => ?escaped, fun esc fd fd' w h h' => ?injective⟩
  case plain =>
    obtain ⟨-, -, rfl⟩ := encodeFrame_ok.1 h
    exact rawFrame_length fd
  case escaped =>
    obtain ⟨-, -, rfl⟩ := encodeFrame_ok.1 h
    obtain ⟨hlower, hupper⟩ := escTail_length_bounds (rawFrame fd).tail
    have hlen : (onWire true (rawFrame fd)).length = (escTail (rawFrame fd).tail).length + 1 := rfl
    rw [List.length_tail, rawFrame_length] at hlower hupper
    exact ⟨by omega, by omega, rfl, (not_mem_tail_onWire_iff true _).2 (.inl rfl)⟩
  case injective =>
    exact Deframed.valid.inj ((deframe_of_encodeFrame h).symm.trans (deframe_of_encodeFrame h'))

/-- Settles O37: by conservation a lone delivery reports the whole frame as one candidate, which holds one marker. -/
theorem loopBackDelivers : Obligations.LoopBackDelivers := by
  intro s fd w hbuf h
  refine ⟨s.fed keepWindow w, _, exec_feed w s, State.fed_result _ _ _, ?_⟩
  rw [State.fed_buf, hbuf, ← Prod.mk_inj, reassemble_encoded_iff keepWindow h]
  obtain ⟨-, -, rfl⟩ := encodeFrame_ok.1 h
  exact not_mem_tail_onWire_iff s.ctrl.esc _

end Sys2Proof.Machine
end

section
/-! SUPPORT. The proofs of the statements about the decoder and dispatch (42_dispatch.md): DEFRAME, CLASSIFY, and the
frame types received and sent. -/

namespace Sys2Proof.Machine

/-! ### DEFRAME -/

/-- A frame stripped of its first three bytes and its last (42_dispatch.md R120). -/
theorem frameDataOf_eq_dropLast_drop (raw : Bytes) : frameDataOf raw = (raw.drop 3).dropLast := by
  rw [frameDataOf, slice, List.drop_take, List.dropLast_eq_take, List.length_drop, Nat.sub_right_comm]

theorem deframe_of_validate_true {esc : Bool} {raw : Bytes} (h : (validate (unwire esc raw)).1 = true) :
    deframe esc raw = .valid ((unwire esc raw).drop 3).dropLast := by
  rw [deframe_eq, if_pos h, frameDataOf_eq_dropLast_drop]

theorem deframe_of_validate_false {esc : Bool} {raw : Bytes} {r : Reason}
    (h : validate (unwire esc raw) = (false, r)) : deframe esc raw = .invalid r := by
  rw [deframe_eq, h]
  rfl

/-- A valid frame is its frame data and four bytes more, counted after unescaping (42_dispatch.md R121 (b)). -/
theorem unwire_length_of_deframe_valid {esc : Bool} {raw fd : Bytes} (h : deframe esc raw = .valid fd) :
    (unwire esc raw).length = fd.length + 4 := by
  rw [deframe_eq] at h
  split_ifs at h with hv
  obtain ⟨x, hi, lo, fd', c, he, -, -⟩ := (validate_true_iff _).1 hv
  rw [he, frameDataOf_shape] at h
  obtain rfl : fd' = fd := Deframed.valid.inj h
  simp [he]

/-! ### CLASSIFY -/

theorem exec_classify (fd : Bytes) (s : State) :
    exec (.classify fd) s = .next (s.returning (.classified (classify fd))) := rfl

/-- CLASSIFY returns the variant and writes nothing else. -/
theorem exec_classify_of_eq {fd : Bytes} {c : Classified} (s : State) (h : classify fd = c) :
    exec (.classify fd) s = .next { s with result := .classified c } := by
  rw [exec_classify, h]
  rfl

/-- No type has two rows in the Dispatch Table. -/
theorem lookup_dispatchTable_of_mem : ∀ e ∈ dispatchTable, dispatchTable.lookup e.1 = some e.2 := by decide

/-- A type of the Dispatch Table is its variant, whatever follows. -/
theorem classify_of_mem {e : Byte × Kind} (h : e ∈ dispatchTable) (p : Bytes) : classify (e.1 :: p) = .known e.2 := by
  rw [classify, lookup_dispatchTable_of_mem e h]

/-- Any other type is unknown (42_dispatch.md R135). -/
theorem classify_of_not_mem {t : Byte} (h : t ∉ dispatchTable.map Prod.fst) (p : Bytes) :
    classify (t :: p) = .unknown (some t) := by
  have hlookup : dispatchTable.lookup t = none := by
    rw [List.lookup_eq_none_iff]
    intro e he
    rw [bne_iff_ne]
    rintro rfl
    exact h (List.mem_map_of_mem he)
  rw [classify, hlookup]

/-- The inbound rows are the Dispatch Table (30_encoding.md R71). -/
theorem mem_dispatchTable_of_inboundRow {row : (Direction → Bytes → Instr) × Byte × Kind} (h : row ∈ inboundRows) :
    row.2 ∈ dispatchTable :=
  List.mem_map_of_mem (f := Prod.snd) h

/-- The outbound codes are not in the Dispatch Table (30_encoding.md R72). -/
theorem not_mem_dispatchTable_of_outboundRow :
    ∀ row ∈ outboundRows, row.2 ∉ dispatchTable.map Prod.fst := by decide

/-- The types that have no row of their own are not in the Dispatch Table. -/
theorem not_mem_dispatchTable_of_not_named {t : Byte} (h : t ∉ namedTypes) : t ∉ dispatchTable.map Prod.fst :=
  fun ht => h ((by decide : dispatchTable.map Prod.fst ⊆ namedTypes) ht)

theorem deliverEvent_of_known {fd : Bytes} {k : Kind} (h : classify fd = .known k) : deliverEvent fd = .frame k fd := by
  rw [deliverEvent, h]

theorem deliverEvent_of_unknown {fd : Bytes} {t : Option Byte} (h : classify fd = .unknown t) :
    deliverEvent fd = .unknownType t fd := by
  rw [deliverEvent, h]

/-! ### The frame-type rows are FEEDs and ENCODEs (log entry 11) -/

theorem exec_inboundRow {row : (Direction → Bytes → Instr) × Byte × Kind} (h : row ∈ inboundRows) (dir : Direction)
    (p : Bytes) (s : State) : exec (row.1 dir p) s = carryFrame dir (row.2.1 :: p) s := by
  simp only [inboundRows, List.mem_cons, List.not_mem_nil, or_false] at h
  rcases h with rfl | rfl | rfl | rfl | rfl | rfl <;> rfl

theorem exec_outboundRow {row : (Direction → Bytes → Instr) × Byte} (h : row ∈ outboundRows) (dir : Direction)
    (p : Bytes) (s : State) : exec (row.1 dir p) s = carryFrame dir (row.2 :: p) s := by
  simp only [outboundRows, List.mem_cons, List.not_mem_nil, or_false] at h
  rcases h with rfl | rfl | rfl | rfl | rfl <;> rfl

theorem exec_unknownType (dir : Direction) (t : Option Byte) (p : Bytes) (s : State) :
    exec (.unknownType dir t p) s = carryFrame dir (t.toList ++ p) s := rfl

theorem carryFrame_inbound_eq_feed (fd : Bytes) (s : State) :
    carryFrame .inbound fd s = exec (.feed (onWire s.ctrl.esc (rawFrame fd))) s := rfl

theorem carryFrame_outbound_eq_encode (fd : Bytes) (s : State) :
    carryFrame .outbound fd s = exec (.encode fd) s := rfl

/-- ENCODE frames a type byte and a payload that fits without a look at the type (41_encoder.md R113). -/
theorem exec_encode_cons (t : Byte) {p : Bytes} (s : State) (h : p.length + 1 ≤ lenMax) :
    exec (.encode (t :: p)) s = .next { s with
      result := .encoded (.ok (onWire s.ctrl.esc (rawFrame (t :: p))))
      encoded := s.encoded ++ [onWire s.ctrl.esc (rawFrame (t :: p))] } :=
  exec_encode_of_ok (encodeFrame_of_length _ (Nat.succ_pos _) h)

/-! ### A frame received -/

/-- A frame whose wire form has one marker, fed to an empty buffer, is delivered; empty frame data too
(42_dispatch.md R136). -/
theorem reassemble_rawFrame {esc : Bool} {fd : Bytes} (hlen : fd.length ≤ lenMax)
    (hm : esc = true ∨ startMarker ∉ (rawFrame fd).tail) :
    reassemble keepWindow esc [] (onWire esc (rawFrame fd)) = ([deliverEvent fd], []) := by
  have hv : (validate (rawFrame fd)).1 = true := congrArg Prod.fst (validate_rawFrame hlen)
  have hcandidate : candidateEvent esc (onWire esc (rawFrame fd)) = deliverEvent fd :=
    (candidateEvent_onWire esc _ _ _ _ fd).trans (if_pos hv)
  have hpass := reassemble_frame _ _ _ fd (.inl rfl) hm
  rwa [if_pos rfl, List.nil_append, ← rawFrame, hcandidate] at hpass

/-- `t` is `s` after the bytes `wire` arrived and gave the one event `e`, which counts one in `name` and nothing in the
other counters; the buffer is empty and all else is as it was. -/
structure ReceivedAs (s t : State) (wire : Bytes) (e : Event) (name : CounterName) : Prop where
  result : t.result = .events [e]
  buf : t.buf = []
  events : t.events = s.events ++ [e]
  received : t.received = s.received ++ wire
  counted : t.counter name = s.counter name + 1
  uncounted : ∀ other ≠ name, t.counter other = s.counter other
  ctrl : t.ctrl = s.ctrl
  transmitted : t.transmitted = s.transmitted
  encoded : t.encoded = s.encoded
  host : t.host = s.host

/-- A FEED that gives one event of one kind. -/
theorem receivedAs_fed {s : State} {wire : Bytes} {e : Event} {name : CounterName}
    (hpass : reassemble keepWindow s.ctrl.esc s.buf wire = ([e], [])) (hone : tally name [e] = 1)
    (hother : ∀ other ≠ name, tally other [e] = 0) : ReceivedAs s (s.fed keepWindow wire) wire e name where
  result := by rw [State.fed_result, hpass]
  buf := by rw [State.fed_buf, hpass]
  events := by rw [State.fed_events, hpass]
  received := State.fed_received _ _ _
  counted := by
    rw [State.fed_counter, hpass, hone]
    rfl
  uncounted other h := by rw [State.fed_counter, hpass, hother other h, Counter.add_zero]
  ctrl := State.fed_ctrl _ _ _
  transmitted := State.fed_transmitted _ _ _
  encoded := State.fed_encoded _ _ _
  host := State.fed_host _ _ _

section

variable {s : State} {fd : Bytes} (hlen : fd.length ≤ lenMax) (hbuf : s.buf = [])
  (hm : s.ctrl.esc = true ∨ startMarker ∉ (rawFrame fd).tail)

include hlen hbuf hm

/-- A frame of a type in the Dispatch Table is received as that `Frame` event. -/
theorem receivedAs_frame {k : Kind} (hk : classify fd = .known k) :
    ReceivedAs s (s.fed keepWindow (onWire s.ctrl.esc (rawFrame fd))) (onWire s.ctrl.esc (rawFrame fd)) (.frame k fd)
      .nFrame := by
  refine receivedAs_fed ?_ rfl fun other h => ?_
  · rw [hbuf, reassemble_rawFrame hlen hm, deliverEvent_of_known hk]
  · cases other with
    | nFrame => exact absurd rfl h
    | nUnknown | nShort | nLen | nCk | nNoise => rfl

/-- Any other frame is received as an `UnknownType` event. -/
theorem receivedAs_unknownType {t : Option Byte} (ht : classify fd = .unknown t) :
    ReceivedAs s (s.fed keepWindow (onWire s.ctrl.esc (rawFrame fd))) (onWire s.ctrl.esc (rawFrame fd))
      (.unknownType t fd) .nUnknown := by
  refine receivedAs_fed ?_ rfl fun other h => ?_
  · rw [hbuf, reassemble_rawFrame hlen hm, deliverEvent_of_unknown ht]
  · cases other with
    | nUnknown => exact absurd rfl h
    | nFrame | nShort | nLen | nCk | nNoise => rfl

end

/-- The frame data of a well-formed UNKNOWN_TYPE row fit a frame and are of no known type. -/
theorem frameData_of_wf_unknownType {dir : Direction} {t : Option Byte} {p : Bytes}
    (h : WellFormed (.unknownType dir t p)) :
    (t.toList ++ p).length ≤ lenMax ∧ classify (t.toList ++ p) = .unknown t := by
  cases t with
  | none =>
    obtain rfl : p = [] := List.isEmpty_iff.1 h
    exact ⟨Nat.zero_le _, rfl⟩
  | some b =>
    simp only [WellFormed, Instr.wf, payloadFits, Bool.and_eq_true, Bool.not_eq_true', List.contains_eq_mem,
      decide_eq_false_iff_not, decide_eq_true_eq] at h
    obtain ⟨hnamed, hfits⟩ := h
    exact ⟨hfits, classify_of_not_mem (not_mem_dispatchTable_of_not_named hnamed) p⟩

/-! ### The statements about the decoder and dispatch -/

/-- Settles O31: DEFRAME undoes framing; its lengths are those of the unescaped frame, which unescaping only shortens. -/
theorem deframeLaws : Obligations.DeframeLaws := by
  refine ⟨fun esc fd w h => deframe_of_encodeFrame h, fun esc raw fd h => ?lengths, by decide, by decide, by decide,
    fun esc raw h => deframe_short h⟩
  case lengths =>
    rw [← unwire_length_of_deframe_valid h]
    refine ⟨unwire_length_le esc raw, ?_⟩
    rintro rfl
    rfl

/-- Settles O49: each row's type is in the Dispatch Table, so its frame is delivered as that variant. -/
theorem inboundFrameTypesAreDelivered : Obligations.InboundFrameTypesAreDelivered := by
  intro row hrow p s
  have hk := classify_of_mem (mem_dispatchTable_of_inboundRow hrow) p
  have hreceived := (exec_inboundRow hrow .inbound p s).trans (carryFrame_inbound_eq_feed _ s)
  refine ⟨⟨_, exec_classify_of_eq s hk, rfl⟩, hreceived, fun hlen hbuf hm => ?_⟩
  have h := receivedAs_frame (fd := row.2.1 :: p) hlen hbuf hm hk
  exact ⟨_, hreceived.trans (exec_feed _ s), h.result, h.buf, h.events, h.counted, h.received,
    h.uncounted .nUnknown nofun, h.uncounted .nShort nofun, h.uncounted .nLen nofun, h.uncounted .nCk nofun,
    h.uncounted .nNoise nofun, h.ctrl, h.transmitted, h.encoded, h.host⟩

/-- Settles O50: ENCODE does not look at the type, and none of the five is in the Dispatch Table. -/
theorem outboundFrameTypes : Obligations.OutboundFrameTypes := by
  intro row hrow p s
  have ht := classify_of_not_mem (not_mem_dispatchTable_of_outboundRow row hrow) p
  have hsent := (exec_outboundRow hrow .outbound p s).trans (carryFrame_outbound_eq_encode _ s)
  have hreceived := (exec_outboundRow hrow .inbound p s).trans (carryFrame_inbound_eq_feed _ s)
  refine ⟨⟨_, exec_classify_of_eq s ht, rfl⟩, hsent, hreceived, fun hlen =>
    ⟨hsent.trans (exec_encode_cons row.2 s hlen), fun hbuf hm => ?_⟩⟩
  have h := receivedAs_unknownType (fd := row.2 :: p) hlen hbuf hm ht
  exact ⟨_, hreceived.trans (exec_feed _ s), h.result, h.events, h.received, h.buf, h.counted,
    h.uncounted .nFrame nofun, h.uncounted .nShort nofun, h.uncounted .nLen nofun, h.uncounted .nCk nofun,
    h.uncounted .nNoise nofun, h.ctrl, h.transmitted, h.encoded, h.host⟩

/-- Settles O51: the rows carry their frame data, in either direction, whatever the type; a type outside the table, or
none, is delivered as unknown. -/
theorem otherDirectionsAndUnknownTypes : Obligations.OtherDirectionsAndUnknownTypes := by
  have hreceived (t : Option Byte) (p : Bytes) (s : State) :=
    (exec_unknownType .inbound t p s).trans (carryFrame_inbound_eq_feed _ s)
  have hsent (t : Option Byte) (p : Bytes) (s : State) :=
    (exec_unknownType .outbound t p s).trans (carryFrame_outbound_eq_encode _ s)
  refine ⟨hreceived, fun row hrow p s => ?inboundTypeSent, hsent, fun t p s hwf hbuf hm => ?unknownReceived,
    fun b p s hlen => (hsent (some b) p s).trans (exec_encode_cons b s hlen),
    fun s => (hsent none [] s).trans (exec_encode_of_refuse (encodeFrame_nil _))⟩
  case inboundTypeSent =>
    have hrowSent := (exec_inboundRow hrow .outbound p s).trans (carryFrame_outbound_eq_encode _ s)
    exact ⟨hrowSent, fun hlen => hrowSent.trans (exec_encode_cons row.2.1 s hlen)⟩
  case unknownReceived =>
    obtain ⟨hlen, ht⟩ := frameData_of_wf_unknownType hwf
    have h := receivedAs_unknownType hlen hbuf hm ht
    exact ⟨_, (hreceived t p s).trans (exec_feed _ s), h.result, h.events, h.received, h.buf, h.counted,
      h.uncounted .nFrame nofun, h.uncounted .nShort nofun, h.uncounted .nLen nofun, h.uncounted .nCk nofun,
      h.uncounted .nNoise nofun, h.ctrl, h.transmitted, h.encoded, h.host⟩

/-- Settles O30: what VALIDATE judges is the bytes as received, unescaped where the mode is on. -/
theorem deframeUnescapesThenValidates : Obligations.DeframeUnescapesThenValidates := by
  refine fun raw s => ⟨fun h => ?valid, fun r h => ?invalid⟩
  case valid =>
    rw [exec_deframe, deframe_of_validate_true h]
    rfl
  case invalid =>
    rw [exec_deframe, deframe_of_validate_false h]
    rfl

/-- Settles O32: a type's row in the Dispatch Table, or that it has none. -/
theorem classifyByTheTypeByte : Obligations.ClassifyByTheTypeByte := by
  intro s p
  have hknown (e : Byte × Kind) (h : e ∈ dispatchTable) := exec_classify_of_eq s (classify_of_mem h p)
  exact ⟨hknown (0x88#8, .localATResponse) (by decide), hknown (0x8B#8, .transmitStatus) (by decide),
    hknown (0x8D#8, .routeInformation) (by decide), hknown (0x90#8, .receivePacket) (by decide),
    hknown (0x91#8, .explicitRxIndicator) (by decide), hknown (0x97#8, .remoteATResponse) (by decide),
    fun t h => exec_classify_of_eq s (classify_of_not_mem h p), exec_classify_of_eq s rfl⟩

end Sys2Proof.Machine
end

section
/-! SUPPORT. The proofs of the statements about the stream reassembler (43_reassembler.md): the outcome of a candidate, one
pass segment by segment, frames cut at safe and at unsafe places, and feeding byte by byte. -/

namespace Sys2Proof.Machine

/-! ### The outcome of a candidate (43_reassembler.md R145, R146, R149) -/

theorem candidateEvent_of_valid {esc : Bool} {raw fd : Bytes} (h : deframe esc raw = .valid fd) :
    candidateEvent esc raw = deliverEvent fd := by
  simp [candidateEvent, h]

theorem candidateEvent_of_invalid {esc : Bool} {raw : Bytes} {r : Reason} (h : deframe esc raw = .invalid r) :
    candidateEvent esc raw = .dropped r raw := by
  simp [candidateEvent, h]

/-- A valid tail is delivered, for every keep window. -/
theorem tailOutcome_of_valid (w : Window) {esc : Bool} {raw fd : Bytes} (h : deframe esc raw = .valid fd) :
    tailOutcome w esc raw = ([candidateEvent esc raw], []) := by
  rw [candidateEvent_of_valid h]
  simp [tailOutcome, h]

/-- An invalid tail whose length is in the keep window is kept. -/
theorem tailOutcome_of_keeps {w : Window} {esc : Bool} {raw : Bytes} {r : Reason} (h : deframe esc raw = .invalid r)
    (hk : w.keeps raw.length) : tailOutcome w esc raw = ([], raw) := by
  simp only [tailOutcome, h, if_pos hk]

/-- An invalid tail longer than three bytes is dropped, with its reason (43_reassembler.md R148). -/
theorem tailOutcome_of_lt_invalid {esc : Bool} {raw : Bytes} {r : Reason} (h : deframe esc raw = .invalid r)
    (hlen : 3 < raw.length) : tailOutcome keepWindow esc raw = ([.dropped r raw], []) := by
  rw [tailOutcome_of_lt hlen, candidateEvent_of_invalid h]

/-! ### One pass over a work buffer cut at its markers -/

/-- Noise, terminated segments and a tail: the noise, one event a segment, and the outcome of the tail. -/
theorem reassemble_segments (w : Window) (esc : Bool) {buf chunk noise tail : Bytes} {terminated : List Bytes}
    (hn : startMarker ∉ noise) (hs : ∀ g ∈ terminated, startMarker ∉ g) (ht : startMarker ∉ tail)
    (hw : buf ++ chunk = noise ++ joinSegments terminated ++ startMarker :: tail) :
    reassemble w esc buf chunk =
      (noiseEvents noise ++ terminated.map (fun g => candidateEvent esc (startMarker :: g)) ++
        (tailOutcome w esc (startMarker :: tail)).1, (tailOutcome w esc (startMarker :: tail)).2) := by
  have hcut : buf ++ chunk = noise ++ joinSegments (terminated ++ [tail]) := by simp [hw]
  have hsegs : ∀ g ∈ terminated ++ [tail], startMarker ∉ g :=
    List.forall_mem_append.2 ⟨hs, by simpa using ht⟩
  rw [reassemble_eq w esc hcut hn hsegs, segmentsPass_append w esc terminated (List.cons_ne_nil tail []),
    segmentsPass_one, List.append_assoc]

/-! ### Whole frames and the head of a frame -/

theorem candidateEvent_wireFrame {esc : Bool} {fd f : Bytes} (h : WireFrame esc fd f) :
    candidateEvent esc f = deliverEvent fd :=
  candidateEvent_of_valid (deframe_of_encodeFrame h.1)

/-- A wire frame gives its own event, as a terminated segment and as the tail alike. -/
theorem segmentsPass_wireFrame (w : Window) {esc : Bool} {fd g : Bytes} (h : WireFrame esc fd (startMarker :: g))
    (rest : List Bytes) :
    segmentsPass w esc (g :: rest) =
      (deliverEvent fd :: (segmentsPass w esc rest).1, (segmentsPass w esc rest).2) := by
  cases rest with
  | nil => rw [segmentsPass_one, tailOutcome_wireFrame w h, segmentsPass_nil]
  | cons g' gs => rw [segmentsPass_cons_cons, candidateEvent_wireFrame h]

/-- Wire frames in a row are segments that give one event each, whatever segments follow. -/
theorem exists_segments_wireFrames (w : Window) {esc : Bool} {fds frames : List Bytes}
    (h : List.Forall₂ (WireFrame esc) fds frames) :
    ∃ segs, joinSegments segs = frames.flatten ∧ (∀ g ∈ segs, startMarker ∉ g) ∧
      ∀ rest, segmentsPass w esc (segs ++ rest) =
        (fds.map deliverEvent ++ (segmentsPass w esc rest).1, (segmentsPass w esc rest).2) := by
  induction h with
  | nil => exact ⟨[], rfl, List.forall_mem_nil _, fun _ => rfl⟩
  | cons hf _ ih =>
    obtain ⟨segs, hjoin, hsegs, hpass⟩ := ih
    obtain ⟨g, rfl, hg, -⟩ := wireFrame_cons hf
    refine ⟨g :: segs, by simp [hjoin], List.forall_mem_cons.2 ⟨hg, hsegs⟩, fun rest => ?_⟩
    rw [List.cons_append, segmentsPass_wireFrame w hf, hpass]
    rfl

/-- A wire frame cut in two: the marker is the first byte of its head, and no other byte of either part. -/
theorem wireFrame_head_cons {esc : Bool} {fd head rest : Bytes} (h : WireFrame esc fd (head ++ rest))
    (hne : head ≠ []) : ∃ k, head = startMarker :: k ∧ startMarker ∉ k ∧ startMarker ∉ rest := by
  obtain ⟨g, hg, hmark, -⟩ := wireFrame_cons h
  obtain ⟨b, k, rfl⟩ := List.exists_cons_of_ne_nil hne
  obtain ⟨rfl, rfl⟩ := List.cons.inj hg
  exact ⟨k, rfl, not_or.1 (List.mem_append.not.1 hmark)⟩

/-- What a safe cut leaves of `frames` in the buffer: nothing, or a proper part of the first frame, from its start, whose
length is in the keep window. -/
def SafeHead (w : Window) (frames : List Bytes) (head : Bytes) : Prop :=
  head = [] ∨ ∃ rest fs, frames = (head ++ rest) :: fs ∧ rest ≠ [] ∧ w.keeps head.length

/-- The head of a frame is no segment or one, and is kept. -/
theorem exists_segments_safeHead {w : Window} {esc : Bool} {fds frames : List Bytes} {head : Bytes}
    (hf : List.Forall₂ (WireFrame esc) fds frames) (h : SafeHead w frames head) :
    ∃ segs, joinSegments segs = head ∧ (∀ g ∈ segs, startMarker ∉ g) ∧ segmentsPass w esc segs = ([], head) := by
  rcases h with rfl | ⟨rest, fs, rfl, hrest, hk⟩
  · exact ⟨[], rfl, List.forall_mem_nil _, rfl⟩
  · obtain ⟨fd, -, hframe, -, -⟩ := List.forall₂_cons_right_iff.1 hf
    by_cases hne : head = []
    · exact ⟨[], hne.symm, List.forall_mem_nil _, by rw [hne, segmentsPass_nil]⟩
    · obtain ⟨k, rfl, hmark, -⟩ := wireFrame_head_cons hframe hne
      refine ⟨[k], by simp, by simpa using hmark, ?_⟩
      rw [segmentsPass_one]
      rcases deframe_wireFrame_head hframe hrest with hinvalid | hinvalid <;> exact tailOutcome_of_keeps hinvalid hk

/-- One pass over whole frames and the head of the next, however the buffer and the chunk share them: the frames are
delivered, the head is kept. -/
theorem reassemble_wireFrames {w : Window} {esc : Bool} {fds fds' done rest : List Bytes} {buf chunk head : Bytes}
    (hdone : List.Forall₂ (WireFrame esc) fds done) (hrest : List.Forall₂ (WireFrame esc) fds' rest)
    (hhead : SafeHead w rest head) (hbytes : buf ++ chunk = done.flatten ++ head) :
    reassemble w esc buf chunk = (fds.map deliverEvent, head) := by
  obtain ⟨segs, hjoin, hsegs, hpass⟩ := exists_segments_wireFrames w hdone
  obtain ⟨last, rfl, hlast, hkept⟩ := exists_segments_safeHead hrest hhead
  rw [reassemble_eq w esc (s := []) (segs := segs ++ last) (by simp [hbytes, hjoin]) List.not_mem_nil
    (List.forall_mem_append.2 ⟨hsegs, hlast⟩), hpass, hkept]
  simp [noiseEvents]

/-! ### Safe cuts (43_reassembler.md R159) -/

/-- A safe cut leaves whole frames before it and a safe head of those from there on. -/
theorem SafeCut.exists_head {w : Window} {frames : List Bytes} {p : Nat} (h : SafeCut w frames p) :
    ∃ done rest head, frames = done ++ rest ∧ SafeHead w rest head ∧ p = (done.flatten ++ head).length ∧
      head <+: rest.flatten := by
  obtain ⟨done, rest, rfl, rfl | ⟨f, fs, off, rfl, rfl, hlo, hhi, hoff⟩⟩ := h
  · exact ⟨done, rest, [], rfl, .inl rfl, by simp, ⟨_, rfl⟩⟩
  · rcases Nat.eq_or_lt_of_le hoff with rfl | hlt
    · exact ⟨done ++ [f], fs, [], by simp, .inl rfl, by simp, ⟨_, rfl⟩⟩
    · have hlen : (f.take off).length = off := List.length_take_of_le hoff
      refine ⟨done, f :: fs, f.take off, rfl, .inr ⟨f.drop off, fs, ?_, ?_, ?_⟩, ?_, ?_⟩
      · rw [List.take_append_drop]
      · simpa using hlt
      · rw [hlen]
        exact ⟨hlo, hhi⟩
      · rw [List.length_append, hlen]
      · refine ⟨f.drop off ++ fs.flatten, ?_⟩
        rw [← List.append_assoc, List.take_append_drop, List.flatten_cons]

/-- A safe cut behind whole frames is a safe cut of the frames that follow. -/
theorem SafeCut.of_append {w : Window} {done rest : List Bytes} {q : Nat}
    (h : SafeCut w (done ++ rest) (done.flatten.length + q)) : SafeCut w rest q := by
  have hzero : SafeCut w rest 0 := ⟨[], rest, rfl, .inl rfl⟩
  obtain ⟨done', rest', hsplit, hcut⟩ := h
  rcases List.append_eq_append_iff.1 hsplit with ⟨as, rfl, rfl⟩ | ⟨as, rfl, rfl⟩
  · refine ⟨as, rest', rfl, hcut.imp (fun hp => ?_) fun ⟨f, fs, off, hr, hp, hoff⟩ => ⟨f, fs, off, hr, ?_, hoff⟩⟩
    all_goals
      rw [List.flatten_append, List.length_append] at hp
      omega
  · rw [List.flatten_append, List.length_append] at hcut
    rcases hcut with hp | ⟨f, fs, off, hr, hp, hlo, hhi, hoff⟩
    · obtain rfl : q = 0 := by omega
      exact hzero
    · cases as with
      | nil => exact ⟨[], rest, rfl, .inr ⟨f, fs, off, hr, by simpa using hp, hlo, hhi, hoff⟩⟩
      | cons a as =>
        obtain ⟨rfl, -⟩ := List.cons.inj hr
        rw [List.flatten_cons, List.length_append] at hp
        obtain rfl : q = 0 := by omega
        exact hzero

/-- Wire frames are not empty, so where the bytes of some are a safe head of them, there are none. -/
theorem eq_nil_of_safeHead_flatten {w : Window} {esc : Bool} {fds frames : List Bytes}
    (hf : List.Forall₂ (WireFrame esc) fds frames) (h : SafeHead w frames frames.flatten) : frames = [] := by
  rcases h with h | ⟨rest, fs, hframes, hrest, -⟩
  · cases hf with
    | nil => rfl
    | cons hframe _ =>
      obtain ⟨g, rfl, -, -⟩ := wireFrame_cons hframe
      exact absurd h (by simp)
  · have hbytes := congrArg List.flatten hframes
    simp [hrest] at hbytes

theorem feedChunks_cons_of_reassemble {w : Window} {esc : Bool} {buf buf' c : Bytes} {es : List Event}
    (cs : List Bytes) (h : reassemble w esc buf c = (es, buf')) :
    feedChunks w esc buf (c :: cs) = (es ++ (feedChunks w esc buf' cs).1, (feedChunks w esc buf' cs).2) := by
  simp [feedChunks, h]

/-- Chunks that end at safe cuts, from a buffer that holds the head of the first frame. -/
theorem feedChunks_safeCuts {w : Window} {esc : Bool} (chunks : List Bytes) :
    ∀ {fds frames : List Bytes} {buf : Bytes}, List.Forall₂ (WireFrame esc) fds frames → SafeHead w frames buf →
      buf ++ chunks.flatten = frames.flatten →
      (∀ k ≤ chunks.length, SafeCut w frames (buf ++ (chunks.take k).flatten).length) →
      feedChunks w esc buf chunks = (fds.map deliverEvent, []) := by
  induction chunks with
  | nil =>
    intro fds frames buf hf hhead hbytes _
    obtain rfl : buf = frames.flatten := by simpa using hbytes
    obtain rfl := eq_nil_of_safeHead_flatten hf hhead
    obtain rfl := List.forall₂_nil_right_iff.1 hf
    rfl
  | cons c cs ih =>
    intro fds frames buf hf _ hbytes hcuts
    obtain ⟨done, rest, head, rfl, hhead, hlen, tl, htl⟩ := (hcuts 1 (by simp)).exists_head
    have hdone := List.forall₂_take_append _ _ _ hf
    have hrest := List.forall₂_drop_append _ _ _ hf
    obtain ⟨hc, hcs⟩ : buf ++ c = done.flatten ++ head ∧ cs.flatten = tl := by
      refine List.append_inj ?_ (by simpa using hlen)
      simpa [← htl] using hbytes
    have hcuts' (k : Nat) (hk : k ≤ cs.length) : SafeCut w rest (head ++ (cs.take k).flatten).length := by
      refine SafeCut.of_append (done := done) ?_
      have hcut := hcuts (k + 1) (by simpa using hk)
      rwa [List.take_succ_cons, List.flatten_cons, ← List.append_assoc, hc, List.append_assoc, List.length_append] at hcut
    have hpass := reassemble_wireFrames hdone hrest hhead hc
    have hnext := ih hrest hhead (by rw [hcs, htl]) hcuts'
    rw [feedChunks_cons_of_reassemble cs hpass, hnext, ← List.map_append, List.take_append_drop]

/-! ### Cuts past the keep window -/

/-- The head of a frame is dropped for its length, never for its checksum. -/
theorem exists_candidateEvent_head {esc : Bool} {fd head rest : Bytes} (h : WireFrame esc fd (head ++ rest))
    (hr : rest ≠ []) : ∃ r, (r = .lengthMismatch ∨ r = .tooShort) ∧ candidateEvent esc head = .dropped r head := by
  rcases deframe_wireFrame_head h hr with hd | hd
  · exact ⟨_, .inr rfl, candidateEvent_of_invalid hd⟩
  · exact ⟨_, .inl rfl, candidateEvent_of_invalid hd⟩

theorem reassemble_noise_of_ne_nil (w : Window) (esc : Bool) {g : Bytes} (hg : startMarker ∉ g) (hne : g ≠ []) :
    reassemble w esc [] g = ([.noise g], []) := by
  rw [reassemble_noise w esc hg, noiseEvents, if_neg hne]

/-! ### Feeding byte by byte -/

/-- FEED after FEED on this machine is the pass over the chunks. -/
theorem runAll_feed (chunks : List Bytes) (s : State) :
    ∃ t, runAll (chunks.map .feed) s = .next t ∧ t.buf = (feedChunks keepWindow s.ctrl.esc s.buf chunks).2 ∧
      t.events = s.events ++ (feedChunks keepWindow s.ctrl.esc s.buf chunks).1 := by
  induction chunks generalizing s with
  | nil => exact ⟨s, rfl, rfl, (List.append_nil _).symm⟩
  | cons c cs ih =>
    obtain ⟨t, hrun, hbuf, hevents⟩ := ih (s.fed keepWindow c)
    refine ⟨t, (runAll_cons_of_next _ (exec_feed c s)).trans hrun, ?_, ?_⟩
    · simpa [feedChunks] using hbuf
    · simpa [feedChunks] using hevents

/-- Bytes that are no markers, one at a time to an empty buffer: each is noise. -/
theorem feedChunks_noise (w : Window) (esc : Bool) {g : Bytes} (hg : startMarker ∉ g) :
    feedChunks w esc [] (g.map fun b => [b]) = (g.map fun b => .noise [b], []) := by
  induction g with
  | nil => rfl
  | cons b g ih =>
    rw [List.mem_cons, not_or] at hg
    obtain ⟨hb, hg⟩ := hg
    rw [List.map_cons, feedChunks_cons_of_reassemble _
      (reassemble_noise_of_ne_nil w esc (List.mem_singleton.not.2 hb) (List.cons_ne_nil b [])), ih hg]
    rfl

/-- A marker and three further bytes, one at a time: three are kept, the fourth makes a tail that is judged. -/
theorem feedChunks_four_bytes (esc : Bool) {a b c : Byte} (h : startMarker ∉ [a, b, c]) (cs : List Bytes) :
    feedChunks keepWindow esc [] ([startMarker] :: [a] :: [b] :: [c] :: cs) =
      (candidateEvent esc [startMarker, a, b, c] :: (feedChunks keepWindow esc [] cs).1,
        (feedChunks keepWindow esc [] cs).2) := by
  simp only [List.mem_cons, List.not_mem_nil, or_false, not_or] at h
  obtain ⟨ha, hb, hc⟩ := h
  have hpass {k : Bytes} {x : Byte} (hk : startMarker ∉ k) (hx : startMarker ≠ x) :
      reassemble keepWindow esc (startMarker :: k) [x] = tailOutcome keepWindow esc (startMarker :: (k ++ [x])) :=
    reassemble_extend keepWindow esc hk (List.mem_singleton.not.2 hx)
  have h1 : reassemble keepWindow esc [] [startMarker] = ([], [startMarker]) := reassemble_startMarker esc (.inl rfl)
  have h2 : reassemble keepWindow esc [startMarker] [a] = ([], [startMarker, a]) :=
    (hpass List.not_mem_nil ha).trans (tailOutcome_of_le (by simp) (by simp))
  have h3 : reassemble keepWindow esc [startMarker, a] [b] = ([], [startMarker, a, b]) :=
    (hpass (by simp [ha]) hb).trans (tailOutcome_of_le (by simp) (by simp))
  have h4 : reassemble keepWindow esc [startMarker, a, b] [c] = ([candidateEvent esc [startMarker, a, b, c]], []) :=
    (hpass (by simp [ha, hb]) hc).trans (tailOutcome_of_lt (by simp))
  rw [feedChunks_cons_of_reassemble _ h1, feedChunks_cons_of_reassemble _ h2, feedChunks_cons_of_reassemble _ h3,
    feedChunks_cons_of_reassemble _ h4]
  rfl

/-- A wire frame, one byte at a time: its first four bytes are dropped for their length, the others are noise. -/
theorem feedChunks_wireFrame_bytes {esc : Bool} {fd f : Bytes} (h : WireFrame esc fd f) :
    ∃ r, (r = .lengthMismatch ∨ r = .tooShort) ∧
      feedChunks keepWindow esc [] (f.map fun b => [b]) =
        (.dropped r (f.take 4) :: (f.drop 4).map (fun b => .noise [b]), []) := by
  obtain ⟨g, rfl, hg, hlen⟩ := wireFrame_cons h
  obtain ⟨a, b, c, d, g, rfl⟩ : ∃ a b c d g', g = a :: b :: c :: d :: g' := by
    match g, hlen with
    | a :: b :: c :: d :: g', _ => exact ⟨a, b, c, d, g', rfl⟩
  obtain ⟨hhead, hrest⟩ : startMarker ∉ [a, b, c] ∧ startMarker ∉ d :: g := by
    simpa [not_or, and_assoc] using hg
  obtain ⟨r, hr, hdrop⟩ :=
    exists_candidateEvent_head (head := [startMarker, a, b, c]) (rest := d :: g) h (List.cons_ne_nil d g)
  refine ⟨r, hr, ?_⟩
  have hall := feedChunks_four_bytes esc hhead ((d :: g).map fun b => [b])
  rwa [feedChunks_noise keepWindow esc hrest, hdrop] at hall

/-! ### The statements about the stream reassembler -/

/-- Settles O34: the pass over noise, terminated segments and a tail, with the outcome of the tail in each case. -/
theorem feedFollowsTheSegments : Obligations.FeedFollowsTheSegments := by
  intro s chunk noise hnoise
  refine ⟨fun hbytes => ?allNoise, fun terminated tail hterminated htail hbytes => ?segments⟩
  case allNoise =>
    have hpass : reassemble keepWindow s.ctrl.esc s.buf chunk = (noiseEvents noise, []) := by
      rw [reassemble_eq keepWindow s.ctrl.esc (s := noise) (segs := []) (by simpa using hbytes) hnoise (by simp)]
      simp
    exact ⟨_, exec_feed chunk s, by rw [State.fed_result, hpass]; rfl, by rw [State.fed_buf, hpass],
      by rw [State.fed_events, hpass]; rfl, State.fed_received _ _ _, State.fed_ctrl _ _ _, State.fed_transmitted _ _ _,
      State.fed_encoded _ _ _, State.fed_host _ _ _⟩
  case segments =>
    have hpass := reassemble_segments keepWindow s.ctrl.esc hnoise hterminated htail hbytes
    refine ⟨_, (tailOutcome keepWindow s.ctrl.esc (startMarker :: tail)).1, exec_feed chunk s,
      by rw [State.fed_result, hpass]; rfl, by rw [State.fed_events, hpass]; rfl, fun fd hvalid => ?delivered,
      fun r hinvalid hlen => ?kept, fun r hinvalid hlen => ?dropped, State.fed_received _ _ _, State.fed_ctrl _ _ _,
      State.fed_transmitted _ _ _, State.fed_encoded _ _ _, State.fed_host _ _ _⟩
    all_goals rw [State.fed_buf, hpass]
    case delivered =>
      have htail := tailOutcome_of_valid keepWindow hvalid
      exact ⟨congrArg Prod.fst htail, congrArg Prod.snd htail⟩
    case kept =>
      have htail := tailOutcome_of_keeps (w := keepWindow) hinvalid ⟨Nat.succ_pos _, hlen⟩
      exact ⟨congrArg Prod.fst htail, congrArg Prod.snd htail⟩
    case dropped =>
      have htail := tailOutcome_of_lt_invalid hinvalid hlen
      exact ⟨congrArg Prod.fst htail, congrArg Prod.snd htail⟩

/-- Settles O36: the pass over a kept tail alone keeps it, and no other field of the state moves. -/
theorem emptyChunkChangesNothing : Obligations.EmptyChunkChangesNothing := by
  intro s hs
  rw [exec_feed, State.fed_eq, reassemble_empty_chunk s.ctrl.esc hs, State.emitAll_nil, List.append_nil]

/-- Settles O38, from the account one pass gives of its bytes. -/
theorem feedConservesBytes : Obligations.FeedConservesBytes := by
  intro s chunk
  obtain ⟨-, pieces, hbytes, hpieces⟩ := reassemble_spec keepWindow s.ctrl.esc s.buf chunk
  exact ⟨_, _, exec_feed chunk s, State.fed_result _ _ _, pieces, by rw [State.fed_buf, hbytes], hpieces⟩

/-- Settles O39, from the induction on the chunks, which begins with nothing in the buffer. -/
theorem safeCutsDeliverEveryFrame : Obligations.SafeCutsDeliverEveryFrame :=
  fun _ _ _ _ chunks _ hf hbytes hcuts => feedChunks_safeCuts chunks hf (.inl rfl) hbytes hcuts

/-- Settles O40: the head is a safe head of the frame; with the rest it is the whole frame. -/
theorem safeCutKeepsTheHead : Obligations.SafeCutKeepsTheHead := by
  intro w esc fd head rest hf hrest _ hk
  have hframes : List.Forall₂ (WireFrame esc) [fd] [head ++ rest] := .cons hf .nil
  exact ⟨reassemble_wireFrames .nil hframes (.inr ⟨rest, [], rfl, hrest, hk⟩) rfl,
    reassemble_wireFrames hframes .nil (.inl rfl) (by simp)⟩

/-- Settles O41: the head is a tail too long to keep, and the remainder holds no marker. -/
theorem unsafeCutLosesTheFrame : Obligations.UnsafeCutLosesTheFrame := by
  intro s fd head rest hbuf hf hrest hlen
  obtain ⟨r, hr, hdrop⟩ := exists_candidateEvent_head hf hrest
  obtain ⟨k, rfl, hk, hnoise⟩ := wireFrame_head_cons hf (List.ne_nil_of_length_pos (Nat.zero_lt_of_lt hlen))
  have hfirst : reassemble keepWindow s.ctrl.esc s.buf (startMarker :: k) = ([.dropped r (startMarker :: k)], []) := by
    rw [hbuf, reassemble_marker keepWindow s.ctrl.esc (.inl rfl) hk, tailOutcome_of_lt hlen, hdrop]
    rfl
  have hkept : (s.fed keepWindow (startMarker :: k)).buf = [] := by rw [State.fed_buf, hfirst]
  refine ⟨_, _, r, exec_feed _ s, exec_feed rest _, by rw [State.fed_result, hfirst], hr, hkept, ?_, ?_⟩
  · rw [State.fed_result, hkept, reassemble_noise_of_ne_nil keepWindow _ hnoise hrest]
  · rw [State.fed_buf, hkept, reassemble_noise keepWindow _ hnoise]

/-- Settles O42: the FEEDs are the pass over the bytes of the frame one by one. -/
theorem byteSerialFeedingDeliversNothing : Obligations.ByteSerialFeedingDeliversNothing := by
  intro s fd f hbuf hf
  obtain ⟨r, hr, hpass⟩ := feedChunks_wireFrame_bytes hf
  obtain ⟨t, hrun, ht, hevents⟩ := runAll_feed (f.map fun b => [b]) s
  rw [hbuf, hpass] at ht hevents
  rw [List.map_map] at hrun
  exact ⟨t, r, hrun, ht, hr, hevents⟩

/-- Settles O33: the two verdicts of DEFRAME, and the two answers of CLASSIFY on a valid one. -/
theorem candidateOutcome : Obligations.CandidateOutcome :=
  fun _ _ _ _ _ _ => ⟨candidateEvent_of_invalid,
    fun hvalid hk => (candidateEvent_of_valid hvalid).trans (deliverEvent_of_known hk),
    fun hvalid ht => (candidateEvent_of_valid hvalid).trans (deliverEvent_of_unknown ht)⟩

/-- Settles O43: the write leaves the buffer and sets the mode the next pass judges in. -/
theorem modeWriteRejudgesTheKeptTail : Obligations.ModeWriteRejudgesTheKeptTail :=
  fun s v chunk => ⟨_, _, exec_csrWrite 0#4 v s, rfl, exec_feed chunk _, State.fed_result _ _ _, State.fed_buf _ _ _⟩

end Sys2Proof.Machine
end

section
/-! SUPPORT. The proofs of the statements about the control operations (44_control.md): CSR_READ and CSR_WRITE. -/

namespace Sys2Proof.Machine

/-- Settles O11: ids 0 to 7 each name their register, read as `exec_csrRead` says; from 8 on it is the reserved read. -/
theorem csrReadGivesTheNamedRegister : Obligations.CsrReadGivesTheNamedRegister :=
  fun s => ⟨exec_csrRead 0#4 s, exec_csrRead 1#4 s, exec_csrRead 2#4 s, exec_csrRead 3#4 s, exec_csrRead 4#4 s,
    exec_csrRead 5#4 s, exec_csrRead 6#4 s, exec_csrRead 7#4 s,
    fun id => (reservedIdsReadZeroAndIgnoreWrites s id 0#8).1⟩

/-- Settles O12: id 0 names CTRL; any other id is at least 1, where a write is ignored. -/
theorem csrWriteWritesOnlyTheModeBit : Obligations.CsrWriteWritesOnlyTheModeBit := by
  intro s v
  refine ⟨exec_csrWrite 0#4 v s, fun id hne => ?_⟩
  have hpos : 1 ≤ id.toNat := Nat.one_le_iff_ne_zero.2 fun h => hne (BitVec.eq_of_toNat_eq h)
  exact (reservedIdsReadZeroAndIgnoreWrites s id v).2 hpos

end Sys2Proof.Machine
end

section
/-! SUPPORT. The proofs of the statements about conditions (60_exceptions.md): every instruction completes, and the codes
the conditions have. -/

namespace Sys2Proof.Machine

/-! ### The codes of the conditions (60_exceptions.md R181) -/

/-- Only the reason of a true verdict is no condition. -/
theorem Reason.code_condition_eq_zero_iff (r : Reason) : r.condition.code = 0 ↔ r = .none := by
  cases r <;> decide

/-- The code of VALIDATE's reason on four bytes or more. -/
theorem code_condition_validate_shape (x hi lo c : Byte) (fd : Bytes) :
    (validate (x :: hi :: lo :: (fd ++ [c]))).2.condition.code =
      if be16 hi lo ≠ fd.length then 2
      else if (validate (x :: hi :: lo :: (fd ++ [c]))).1 = false then 3 else 0 := by
  by_cases hlen : be16 hi lo = fd.length
  · rw [if_neg (not_not.2 hlen)]
    by_cases hck : checksum fd = c
    · rw [(validate_shape_valid_iff x hi lo c fd).2 ⟨hlen, hck⟩]
      rfl
    · rw [validate_checksumMismatch x hlen hck]
      rfl
  · rw [validate_shape, if_pos hlen, if_pos hlen]
    rfl

/-- ENCODE refuses for emptiness what is empty, and anything else for its length only (41_encoder.md R111, R112). -/
theorem encodeFrame_refuse {esc : Bool} {fd : Bytes} {why : EncodeRefusal} (h : encodeFrame esc fd = .refuse why) :
    why = if fd = [] then .emptyFrameData else .lengthOverflow := by
  by_cases hnil : fd = []
  · subst hnil
    exact Encoded.refuse.inj (h.symm.trans (encodeFrame_nil esc))
  · rw [if_neg hnil]
    rcases Nat.lt_or_ge lenMax fd.length with hlong | hfits
    · exact Encoded.refuse.inj (h.symm.trans (encodeFrame_overflow esc hlong))
    · rw [encodeFrame_of_length esc (List.length_pos_iff.2 hnil) hfits] at h
      cases h

/-! ### The statements about conditions -/

/-- Settles O8: `exec_effect` gives the next state of every instruction. -/
theorem everyInstructionCompletes : Obligations.EveryInstructionCompletes :=
  fun i s => (exec_effect i s).imp fun _ h => h.1

/-- Settles O52: the verdict's code by the frame's shape, a refusal's by its reason, an event's by what it reports. -/
theorem conditionCodes : Obligations.ConditionCodes := by
  refine ⟨fun raw => ?verdict, fun esc fd why h => ?refusal, fun esc raw r h => ?dropped, fun fd k h => ?frame,
    fun fd t h => ?unknownType, fun bs => rfl⟩
  case verdict =>
    by_cases hshort : raw.length < 4
    · rw [if_pos hshort, validate_short hshort]
      rfl
    · obtain ⟨x, hi, lo, fd, c, rfl⟩ := exists_frame_shape (Nat.le_of_not_lt hshort)
      have hdata : (x :: hi :: lo :: (fd ++ [c])).length - 4 = fd.length := by simp
      rw [if_neg hshort, hdata]
      exact code_condition_validate_shape x hi lo c fd
  case refusal =>
    rw [encodeFrame_refuse h]
    split_ifs <;> rfl
  case dropped =>
    rw [candidateEvent_of_invalid h]
    exact ⟨rfl, mt r.code_condition_eq_zero_iff.1 (deframe_invalid_reason h)⟩
  case frame =>
    rw [deliverEvent_of_known h]
    rfl
  case unknownType =>
    rw [deliverEvent_of_unknown h]
    rfl

end Sys2Proof.Machine
end

section
/-! SUPPORT. The proof of the statement about FEED where CHUNK_MAX is set (92_eei_decisions.md D17). -/

namespace Sys2Proof.Machine

/-- With CHUNK_MAX set, the chunk's length alone decides between refusal and the pass (log entry 7). -/
theorem feedUnder_some (n : Nat) (w : Window) (chunk : Bytes) (s : State) :
    feedUnder (some n) w chunk s = if n < chunk.length then .refused .chunkTooLong else .next (s.fed w chunk) := rfl

/-- Settles O9: `feedUnder_some` on either side of the bound; a chunk of exactly CHUNK_MAX bytes is still fed. -/
theorem longChunksAreRefusedWhereChunkMaxIsSet : Obligations.LongChunksAreRefusedWhereChunkMaxIsSet := by
  refine fun n w chunk s => ⟨fun hlong => ?refused, fun hfits => ?fed⟩
  case refused => rw [feedUnder_some, if_pos hlong]
  case fed => rw [feedUnder_some, if_neg (Nat.not_lt.2 hfits)]

end Sys2Proof.Machine
end
